-- ==== Sys2Proof/Word.lean ====
section
/-! DEFINITION. The two word widths of the machine (10_state.md R10, R12, R13; 00_scope.md R7). All values are
unsigned; there is no signed quantity anywhere in the machine. -/

namespace Sys2Proof

/-- A byte of memory or a general register: 8 bits, unsigned (10_state.md R10, R16). -/
abbrev Byte := BitVec 8

/-- The width of PC, I, a stack entry and an opcode: 16 bits, unsigned (10_state.md R12, R13, R14, R18). -/
abbrev Word := BitVec 16

end Sys2Proof
end

