-- ==== Sys2Proof/Machine/Flags.lean ====
section
/-! DEFINITION. The values VF takes (10_state.md R11): the machine's only flag, 1 or 0. -/

namespace Sys2Proof.Machine

/-- A condition as a flag byte. -/
def flagByte (c : Bool) : Byte := if c then 1 else 0

/-- ADD: 1 if the 16-bit sum exceeds 255 (42_alu.md R85). -/
def carryFlag (x y : Byte) : Byte := flagByte (decide (255 < x.toNat + y.toNat))

/-- SUB and SUBN alike: 1 if VX > VY, strict and unsigned; 0 when equal (42_alu.md R86, R88, R92). -/
def greaterFlag (x y : Byte) : Byte := flagByte (decide (y.toNat < x.toNat))

/-- SHR: 1 if VY is even, the complement of the bit shifted out (42_alu.md R87, R92). -/
def evenFlag (y : Byte) : Byte := flagByte (!y.getLsbD 0)

/-- SHL: bit 7 of VY (42_alu.md R89). -/
def highBitFlag (y : Byte) : Byte := flagByte (y.getLsbD 7)

/-- DRW: 1 if a toggled cell was lit (44_display.md R107). -/
def collisionFlag (hit : Bool) : Byte := flagByte hit

end Sys2Proof.Machine
end

