-- ==== Sys2Proof/Syntax.lean ====
section
/-! DEFINITION. The instruction set as syntax: one constructor per row of 30_encoding.md R47 and
spec/opcode_table.json. Operands are the fields of 00_scope.md R7: X and Y name registers, N is a count of rows, NN
an 8-bit immediate, NNN a 12-bit immediate. -/

namespace Sys2Proof

/-- A general register number, 0..15 (10_state.md R10); 15 is VF. In DUMP and LOAD it is also a count
(30_encoding.md R53). -/
abbrev Reg := Fin 16

/-- The 12-bit immediate NNN (30_encoding.md R53). -/
abbrev Imm12 := BitVec 12

/-- The row count N of DRW, 0..15 (30_encoding.md R53). -/
abbrev RowCount := Fin 16

/-- The instructions of 30_encoding.md R47, in the table's order. Bits that the decoder ignores (R50) are no operand
and are not kept. -/
inductive Instr where
  | cls
  | ret
  | jp (nnn : Imm12)
  | call (nnn : Imm12)
  | se (x : Reg) (nn : Byte)
  | sne (x : Reg) (nn : Byte)
  | ser (x y : Reg)
  | ldi (x : Reg) (nn : Byte)
  | addi (x : Reg) (nn : Byte)
  | mov (x y : Reg)
  | or (x y : Reg)
  | and (x y : Reg)
  | xor (x y : Reg)
  | add (x y : Reg)
  | sub (x y : Reg)
  | shr (x y : Reg)
  | subn (x y : Reg)
  | shl (x y : Reg)
  | sner (x y : Reg)
  | ldix (nnn : Imm12)
  | jpv0 (nnn : Imm12)
  | rnd (x : Reg) (nn : Byte)
  | drw (x y : Reg) (n : RowCount)
  | skp (x : Reg)
  | sknp (x : Reg)
  | ldvdt (x : Reg)
  | wkey (x : Reg)
  | lddt (x : Reg)
  | ldst (x : Reg)
  | addix (x : Reg)
  | font (x : Reg)
  | bcd (x : Reg)
  | dump (x : Reg)
  | load (x : Reg)
  /-- every other opcode (40_step_cycle.md R65). `op` is the unmapped opcode itself: no operand (the handler ignores
  it), kept so that the encoder can give the word back. Log 29. -/
  | nop (op : Word)
  deriving DecidableEq, Repr

end Sys2Proof
end

