-- ==== Sys2Proof/WellFormed.lean ====
section
/-! DEFINITION. Which terms of `Instr` stand for an instruction. Register numbers, counts and immediates are in range
by their types; what is left to check is that a NOP really is an unmapped opcode (30_encoding.md R51, R52). -/

namespace Sys2Proof

/-- The unmapped encodings, as 30_encoding.md R51 lists them by family: T = 0x0 with N not 0x0 or 0xE; T = 0x8 with N
one of 0x8 to 0xD or 0xF; T = 0xE with N not 0x1 or 0xE; T = 0xF with NN none of the nine low bytes. -/
def unmapped (op : Word) : Bool :=
  let t := (op.extractLsb' 12 4).toNat
  let n := (op.extractLsb' 0 4).toNat
  let nn := (op.extractLsb' 0 8).toNat
  (t == 0x0 && !([0x0, 0xE].contains n)) ||
  (t == 0x8 && [0x8, 0x9, 0xA, 0xB, 0xC, 0xD, 0xF].contains n) ||
  (t == 0xE && !([0x1, 0xE].contains n)) ||
  (t == 0xF && !([0x07, 0x0A, 0x15, 0x18, 0x1E, 0x29, 0x33, 0x55, 0x65].contains nn))

/-- An instruction is well formed unless it is a NOP made from a mapped opcode. -/
def Instr.wellFormed : Instr → Bool
  | .cls => true
  | .ret => true
  | .jp _ => true
  | .call _ => true
  | .se _ _ => true
  | .sne _ _ => true
  | .ser _ _ => true
  | .ldi _ _ => true
  | .addi _ _ => true
  | .mov _ _ => true
  | .or _ _ => true
  | .and _ _ => true
  | .xor _ _ => true
  | .add _ _ => true
  | .sub _ _ => true
  | .shr _ _ => true
  | .subn _ _ => true
  | .shl _ _ => true
  | .sner _ _ => true
  | .ldix _ => true
  | .jpv0 _ => true
  | .rnd _ _ => true
  | .drw _ _ _ => true
  | .skp _ => true
  | .sknp _ => true
  | .ldvdt _ => true
  | .wkey _ => true
  | .lddt _ => true
  | .ldst _ => true
  | .addix _ => true
  | .font _ => true
  | .bcd _ => true
  | .dump _ => true
  | .load _ => true
  | .nop op => unmapped op

end Sys2Proof
end

