-- ==== Sys2Proof/Decode.lean ====
section
/-! DEFINITION. The decoder (30_encoding.md R45, R46, R49 to R52), total on every opcode, and the encoder (R54). The
opcode numbers are those of R47, which the spec supplies from general knowledge (its decision D4, log 8). -/

namespace Sys2Proof

/-! ### The fields of an opcode (00_scope.md R7) -/

/-- `T = op[15:12]`, the top nibble that selects one of the sixteen primary handlers. -/
def fieldT (op : Word) : BitVec 4 := op.extractLsb' 12 4

/-- `X = op[11:8]`. -/
def fieldX (op : Word) : Reg := (op.extractLsb' 8 4).toFin

/-- `Y = op[7:4]`. -/
def fieldY (op : Word) : Reg := (op.extractLsb' 4 4).toFin

/-- `N = op[3:0]` as the row count of DRW. -/
def fieldN (op : Word) : RowCount := (op.extractLsb' 0 4).toFin

/-- `N = op[3:0]` as the sub-opcode of families 0x0, 0x8 and 0xE. -/
def subNibble (op : Word) : BitVec 4 := op.extractLsb' 0 4

/-- `NN = op[7:0]`, an immediate, or the sub-opcode of family 0xF. -/
def fieldNN (op : Word) : Byte := op.extractLsb' 0 8

/-- `NNN = op[11:0]`. -/
def fieldNNN (op : Word) : Imm12 := op.extractLsb' 0 12

/-! ### Byte order (20_memory.md R36): high byte first -/

/-- `OPCODE <- MEM[PC] * 256 + MEM[PC+1]`. -/
def joinBytes (hi lo : Byte) : Word := .ofNat 16 (hi.toNat * 256 + lo.toNat)

/-- Bits 15..8, the byte at the lower address. -/
def highByte (w : Word) : Byte := w.extractLsb' 8 8

/-- Bits 7..0, the byte at the higher address. -/
def lowByte (w : Word) : Byte := w.extractLsb' 0 8

/-! ### Decoding (30_encoding.md R49): a two-level lookup that tests only the bits the tables are indexed by -/

/-- Family 0x0, routed on the bottom nibble. -/
def decodeFamily0 (op : Word) : Instr :=
  match subNibble op with
  | 0x0#4 => .cls
  | 0xE#4 => .ret
  | _ => .nop op

/-- Family 0x8, routed on the bottom nibble. -/
def decodeFamily8 (op : Word) : Instr :=
  match subNibble op with
  | 0x0#4 => .mov (fieldX op) (fieldY op)
  | 0x1#4 => .or (fieldX op) (fieldY op)
  | 0x2#4 => .and (fieldX op) (fieldY op)
  | 0x3#4 => .xor (fieldX op) (fieldY op)
  | 0x4#4 => .add (fieldX op) (fieldY op)
  | 0x5#4 => .sub (fieldX op) (fieldY op)
  | 0x6#4 => .shr (fieldX op) (fieldY op)
  | 0x7#4 => .subn (fieldX op) (fieldY op)
  | 0xE#4 => .shl (fieldX op) (fieldY op)
  | _ => .nop op

/-- Family 0xE, routed on the bottom nibble. -/
def decodeFamilyE (op : Word) : Instr :=
  match subNibble op with
  | 0x1#4 => .sknp (fieldX op)
  | 0xE#4 => .skp (fieldX op)
  | _ => .nop op

/-- Family 0xF, routed on the whole bottom byte. -/
def decodeFamilyF (op : Word) : Instr :=
  match fieldNN op with
  | 0x07#8 => .ldvdt (fieldX op)
  | 0x0A#8 => .wkey (fieldX op)
  | 0x15#8 => .lddt (fieldX op)
  | 0x18#8 => .ldst (fieldX op)
  | 0x1E#8 => .addix (fieldX op)
  | 0x29#8 => .font (fieldX op)
  | 0x33#8 => .bcd (fieldX op)
  | 0x55#8 => .dump (fieldX op)
  | 0x65#8 => .load (fieldX op)
  | _ => .nop op

/-- The decoder of 30_encoding.md R49. Every opcode selects exactly one handler; decoding never faults. A sub-opcode
that no row names is the NOP of R51, also beyond the end of a table (R52, the spec's decision D12, log 15). -/
def decodeOpcode (op : Word) : Instr :=
  match fieldT op with
  | 0x0#4 => decodeFamily0 op
  | 0x1#4 => .jp (fieldNNN op)
  | 0x2#4 => .call (fieldNNN op)
  | 0x3#4 => .se (fieldX op) (fieldNN op)
  | 0x4#4 => .sne (fieldX op) (fieldNN op)
  | 0x5#4 => .ser (fieldX op) (fieldY op)
  | 0x6#4 => .ldi (fieldX op) (fieldNN op)
  | 0x7#4 => .addi (fieldX op) (fieldNN op)
  | 0x8#4 => decodeFamily8 op
  | 0x9#4 => .sner (fieldX op) (fieldY op)
  | 0xA#4 => .ldix (fieldNNN op)
  | 0xB#4 => .jpv0 (fieldNNN op)
  | 0xC#4 => .rnd (fieldX op) (fieldNN op)
  | 0xD#4 => .drw (fieldX op) (fieldY op) (fieldN op)
  | 0xE#4 => decodeFamilyE op
  | _ => decodeFamilyF op

/-- Why a byte sequence is no instruction. There is no illegal encoding (30_encoding.md R51), so the one reason is
that two bytes are needed and are not there (R45). -/
inductive DecodeError where
  | truncated
  deriving DecidableEq, Repr

/-- The decoder on bytes in ascending address order: the instruction and the bytes after it. -/
def decode : List Byte → Except DecodeError (Instr × List Byte)
  | hi :: lo :: rest => .ok (decodeOpcode (joinBytes hi lo), rest)
  | _ => .error .truncated

/-! ### Encoding (30_encoding.md R54): the canonical word of each instruction -/

/-- The word R54 gives each instruction, canonical where the decoder ignores bits (00E0, 00EE, 5XY0, 9XY0, EX9E,
EXA1); the word of a NOP is the unmapped opcode it was made from (log 29). -/
def encode : Instr → Word
  | .cls => 0x00E0
  | .ret => 0x00EE
  | .jp nnn => .ofNat 16 (0x1000 + nnn.toNat)
  | .call nnn => .ofNat 16 (0x2000 + nnn.toNat)
  | .se x nn => .ofNat 16 (0x3000 + x.val * 256 + nn.toNat)
  | .sne x nn => .ofNat 16 (0x4000 + x.val * 256 + nn.toNat)
  | .ser x y => .ofNat 16 (0x5000 + x.val * 256 + y.val * 16)
  | .ldi x nn => .ofNat 16 (0x6000 + x.val * 256 + nn.toNat)
  | .addi x nn => .ofNat 16 (0x7000 + x.val * 256 + nn.toNat)
  | .mov x y => .ofNat 16 (0x8000 + x.val * 256 + y.val * 16)
  | .or x y => .ofNat 16 (0x8001 + x.val * 256 + y.val * 16)
  | .and x y => .ofNat 16 (0x8002 + x.val * 256 + y.val * 16)
  | .xor x y => .ofNat 16 (0x8003 + x.val * 256 + y.val * 16)
  | .add x y => .ofNat 16 (0x8004 + x.val * 256 + y.val * 16)
  | .sub x y => .ofNat 16 (0x8005 + x.val * 256 + y.val * 16)
  | .shr x y => .ofNat 16 (0x8006 + x.val * 256 + y.val * 16)
  | .subn x y => .ofNat 16 (0x8007 + x.val * 256 + y.val * 16)
  | .shl x y => .ofNat 16 (0x800E + x.val * 256 + y.val * 16)
  | .sner x y => .ofNat 16 (0x9000 + x.val * 256 + y.val * 16)
  | .ldix nnn => .ofNat 16 (0xA000 + nnn.toNat)
  | .jpv0 nnn => .ofNat 16 (0xB000 + nnn.toNat)
  | .rnd x nn => .ofNat 16 (0xC000 + x.val * 256 + nn.toNat)
  | .drw x y n => .ofNat 16 (0xD000 + x.val * 256 + y.val * 16 + n.val)
  | .skp x => .ofNat 16 (0xE09E + x.val * 256)
  | .sknp x => .ofNat 16 (0xE0A1 + x.val * 256)
  | .ldvdt x => .ofNat 16 (0xF007 + x.val * 256)
  | .wkey x => .ofNat 16 (0xF00A + x.val * 256)
  | .lddt x => .ofNat 16 (0xF015 + x.val * 256)
  | .ldst x => .ofNat 16 (0xF018 + x.val * 256)
  | .addix x => .ofNat 16 (0xF01E + x.val * 256)
  | .font x => .ofNat 16 (0xF029 + x.val * 256)
  | .bcd x => .ofNat 16 (0xF033 + x.val * 256)
  | .dump x => .ofNat 16 (0xF055 + x.val * 256)
  | .load x => .ofNat 16 (0xF065 + x.val * 256)
  | .nop op => op

/-- The two bytes of an instruction, in ascending address order. -/
def encodeBytes (i : Instr) : List Byte := [highByte (encode i), lowByte (encode i)]

/-! ### The opcode table (30_encoding.md R47) as data, for statements about the decoder -/

/-- One row of R47: an opcode `op` selects it when `op AND mask = pattern`. -/
structure OpcodeRow where
  mnemonic : String
  mask : Word
  pattern : Word
  deriving DecidableEq, Repr

/-- The 34 rows of R47 before the default row NOP. -/
def opcodeTable : List OpcodeRow :=
  [⟨"CLS", 0xF00F, 0x0000⟩] ++
  [⟨"RET", 0xF00F, 0x000E⟩] ++
  [⟨"JP", 0xF000, 0x1000⟩] ++
  [⟨"CALL", 0xF000, 0x2000⟩] ++
  [⟨"SE", 0xF000, 0x3000⟩] ++
  [⟨"SNE", 0xF000, 0x4000⟩] ++
  [⟨"SER", 0xF000, 0x5000⟩] ++
  [⟨"LDI", 0xF000, 0x6000⟩] ++
  [⟨"ADDI", 0xF000, 0x7000⟩] ++
  [⟨"MOV", 0xF00F, 0x8000⟩] ++
  [⟨"OR", 0xF00F, 0x8001⟩] ++
  [⟨"AND", 0xF00F, 0x8002⟩] ++
  [⟨"XOR", 0xF00F, 0x8003⟩] ++
  [⟨"ADD", 0xF00F, 0x8004⟩] ++
  [⟨"SUB", 0xF00F, 0x8005⟩] ++
  [⟨"SHR", 0xF00F, 0x8006⟩] ++
  [⟨"SUBN", 0xF00F, 0x8007⟩] ++
  [⟨"SHL", 0xF00F, 0x800E⟩] ++
  [⟨"SNER", 0xF000, 0x9000⟩] ++
  [⟨"LDIX", 0xF000, 0xA000⟩] ++
  [⟨"JPV0", 0xF000, 0xB000⟩] ++
  [⟨"RND", 0xF000, 0xC000⟩] ++
  [⟨"DRW", 0xF000, 0xD000⟩] ++
  [⟨"SKP", 0xF00F, 0xE00E⟩] ++
  [⟨"SKNP", 0xF00F, 0xE001⟩] ++
  [⟨"LDVDT", 0xF0FF, 0xF007⟩] ++
  [⟨"WKEY", 0xF0FF, 0xF00A⟩] ++
  [⟨"LDDT", 0xF0FF, 0xF015⟩] ++
  [⟨"LDST", 0xF0FF, 0xF018⟩] ++
  [⟨"ADDIX", 0xF0FF, 0xF01E⟩] ++
  [⟨"FONT", 0xF0FF, 0xF029⟩] ++
  [⟨"BCD", 0xF0FF, 0xF033⟩] ++
  [⟨"DUMP", 0xF0FF, 0xF055⟩] ++
  [⟨"LOAD", 0xF0FF, 0xF065⟩]

/-- An opcode selects a row. -/
def OpcodeRow.selects (row : OpcodeRow) (op : Word) : Bool := op &&& row.mask == row.pattern

/-- The mnemonic of 30_encoding.md R47 for an instruction. -/
def Instr.mnemonic : Instr → String
  | .cls => "CLS"
  | .ret => "RET"
  | .jp _ => "JP"
  | .call _ => "CALL"
  | .se _ _ => "SE"
  | .sne _ _ => "SNE"
  | .ser _ _ => "SER"
  | .ldi _ _ => "LDI"
  | .addi _ _ => "ADDI"
  | .mov _ _ => "MOV"
  | .or _ _ => "OR"
  | .and _ _ => "AND"
  | .xor _ _ => "XOR"
  | .add _ _ => "ADD"
  | .sub _ _ => "SUB"
  | .shr _ _ => "SHR"
  | .subn _ _ => "SUBN"
  | .shl _ _ => "SHL"
  | .sner _ _ => "SNER"
  | .ldix _ => "LDIX"
  | .jpv0 _ => "JPV0"
  | .rnd _ _ => "RND"
  | .drw _ _ _ => "DRW"
  | .skp _ => "SKP"
  | .sknp _ => "SKNP"
  | .ldvdt _ => "LDVDT"
  | .wkey _ => "WKEY"
  | .lddt _ => "LDDT"
  | .ldst _ => "LDST"
  | .addix _ => "ADDIX"
  | .font _ => "FONT"
  | .bcd _ => "BCD"
  | .dump _ => "DUMP"
  | .load _ => "LOAD"
  | .nop _ => "NOP"

/-- What the decoder reads from the instruction whose bits are `w`, bit 0 the least significant bit of the opcode:
its low `nbits` bits, the bits above them 0, laid out high byte first. An instruction is never longer than 16 bits
(30_encoding.md R45). -/
def decodeTableWord (nbits w : Nat) : Option Instr :=
  if nbits ≤ 16 then
    let op : Word := .ofNat 16 (w % 2 ^ nbits)
    match decode [highByte op, lowByte op] with
    | .ok (i, _) => some i
    | .error _ => none
  else none

end Sys2Proof
end

