-- ==== Sys2Proof/Config.lean ====
section
/-! DEFINITION. The constants of this hardware (00_scope.md R5), the parameters the spec names and gives a default
(00_scope.md R6), and the free values of the two inputs whose value nothing constrains (10_state.md R21, R22). -/

namespace Sys2Proof.Config

/-- MEM_SIZE: addresses 0..4095 (00_scope.md R5). -/
def memSize : Nat := 4096

/-- STACK_DEPTH (00_scope.md R5). -/
def stackDepth : Nat := 16

/-- FB_W, the columns of the display (00_scope.md R5). -/
def fbWidth : Nat := 64

/-- FB_H, the rows of the display (00_scope.md R5). -/
def fbHeight : Nat := 32

/-- LOAD_ORIGIN (00_scope.md R6; the number is the spec's decision D1). UNVERIFIED, log 4, unsafe. -/
def loadOrigin : Nat := 0x200

/-- FONT_BASE (00_scope.md R6; the number is the spec's decision D2). UNVERIFIED, log 5, unsafe. -/
def fontBase : Nat := 0x050

/-- FONT_DATA, the sixteen glyphs, five rows each, rows top to bottom (70_reset_and_hazards.md R153; the spec's
decision D3, from general knowledge). UNVERIFIED, log 6, unsafe. -/
def fontData : List Byte :=
  [0xF0, 0x90, 0x90, 0x90, 0xF0] ++   -- 0
  [0x20, 0x60, 0x20, 0x20, 0x70] ++   -- 1
  [0xF0, 0x10, 0xF0, 0x80, 0xF0] ++   -- 2
  [0xF0, 0x10, 0xF0, 0x10, 0xF0] ++   -- 3
  [0x90, 0x90, 0xF0, 0x10, 0x10] ++   -- 4
  [0xF0, 0x80, 0xF0, 0x10, 0xF0] ++   -- 5
  [0xF0, 0x80, 0xF0, 0x90, 0xF0] ++   -- 6
  [0xF0, 0x10, 0x20, 0x40, 0x40] ++   -- 7
  [0xF0, 0x90, 0xF0, 0x90, 0xF0] ++   -- 8
  [0xF0, 0x90, 0xF0, 0x10, 0xF0] ++   -- 9
  [0xF0, 0x90, 0xF0, 0x90, 0x90] ++   -- A
  [0xE0, 0x90, 0xE0, 0x90, 0xE0] ++   -- B
  [0xF0, 0x80, 0x80, 0x80, 0xF0] ++   -- C
  [0xE0, 0x90, 0x90, 0x90, 0xE0] ++   -- D
  [0xF0, 0x80, 0xF0, 0x80, 0xF0] ++   -- E
  [0xF0, 0x80, 0xF0, 0x80, 0x80]      -- F

/-- The four values of the parameter DRAW_EDGE: what DRW does with a set sprite bit whose position, after the one
initial wrap, lies off the 64×32 grid (44_display.md R108). -/
inductive DrawEdge where
  /-- the dense index is computed without regard to the grid; beyond the buffer it is a fault -/
  | linear
  /-- each coordinate is wrapped; never a fault -/
  | wrap
  /-- the bit is ignored -/
  | clip
  /-- any off-grid set bit is a fault -/
  | fault
  deriving DecidableEq, Repr

/-- DRAW_EDGE (00_scope.md R6; `linear` is the spec's decision D7). UNVERIFIED, log 7, unsafe. -/
def drawEdge : DrawEdge := .linear

/-- FREE VALUE: the random byte of a draw that no supplied input byte answers; `n` counts the draws made before it.
"every value 0..255 is possible at every draw and no draw constrains another" (10_state.md R22). No body: nothing
can be proved about a value of it. Log 19. -/
opaque freeRandom : Nat → Byte

/-- FREE VALUE: the sixteen key bits of a Step for which the host has supplied no pattern; `n` counts the samples
taken before it. The keypad "may be any of the 65536 patterns at each Step, independent of earlier Steps"
(10_state.md R21). No body: nothing can be proved about a value of it. Log 18. -/
opaque freeKeys : Nat → BitVec 16

end Sys2Proof.Config
end

