-- ==== Sys2Proof/Machine/State.lean ====
section
/-! DEFINITION. The architectural state (10_state.md section 1), the fault causes (60_exceptions.md R126) and the state
right after Reset (10_state.md R25, 70_reset_and_hazards.md R150). -/

namespace Sys2Proof.Machine

/-- The fault causes of 60_exceptions.md R126, each with the one value it records. A fault is taken by latching it in
FLT (R129); a step of a machine whose latch is set answers it again (R131). Safe: the machine stops and nothing after
the fault can be claimed of the program. -/
inductive Fault where
  /-- cause 1: raised by the fetch of any Step, DRW, BCD, DUMP, LOAD for an address above 4095; the lowest offending
  address (R132). Safe. -/
  | addressOutOfRange (address : Nat)
  /-- cause 2: raised by CALL with SP = 16; the address of the CALL opcode (R133). Safe. -/
  | stackOverflow (opcodeAddress : Nat)
  /-- cause 3: raised by RET with SP = 0; the address of the RET opcode (R134). Safe. -/
  | stackUnderflow (opcodeAddress : Nat)
  /-- cause 4: raised by DRW for a set sprite bit off the display; the cell index k (44_display.md R107, R108). Safe. -/
  | displayOutOfRange (k : Nat)
  /-- cause 5: raised by SKP and SKNP with VX > 15; the value of VX (45_keypad_timers.md R121). Safe. -/
  | keyIndexOutOfRange (value : Nat)
  /-- cause 6: raised by LoadProgram for a byte sequence too long for memory; its length (R135). Safe. -/
  | romLoadError (length : Nat)
  deriving DecidableEq, Repr

/-- Why the model has no move. Each is safe: nothing can be proved through a refusal. -/
inductive Refusal where
  /-- An instruction of the table whose meaning is not written. No arm of exec answers it now. Safe. -/
  | notModelled (mnemonic : String)
  /-- A Step before a successful LoadProgram, raised by step: "not admitted: no meaning (a host error)"
  (70_reset_and_hazards.md R157, 40_step_cycle.md R67). Log 3, safe. -/
  | stepBeforeLoad
  /-- A second LoadProgram, raised by loadProgram: "not admitted: no meaning" (70_reset_and_hazards.md R157).
  Log 3, safe. -/
  | secondLoad
  deriving DecidableEq, Repr

/-- Memory as the bytes that differ from the contents Reset leaves: (address, byte), addresses strictly rising, no
entry equal to what the address reads as unlisted (`Memory.wf`). Log 28. -/
abbrev Memory := List Host.Cell

/-- The display buffer: 32 rows of 64 cells, row y from the top, bit x of a row the cell of column x from the left;
cell k is in row `k div 64`, column `k mod 64` (10_state.md R17). Lit is 1. -/
abbrev Framebuffer := Vector (BitVec 64) 32

/-- The state of the machine. -/
structure State where
  /-- V0..VF; VF = V[15] is the only flag (10_state.md R10, R11). -/
  v : Vector Byte 16
  /-- I, the index register (R12). -/
  i : Word
  /-- PC, the program counter (R13). -/
  pc : Word
  /-- STACK[0..15], the return addresses (R14). -/
  stack : Vector Word 16
  /-- SP, the number of valid entries, 0..16 (R14). -/
  sp : Fin 17
  /-- DT, the delay timer (R15). -/
  dt : Byte
  /-- ST, the sound timer (R15). -/
  st : Byte
  /-- MEM[0..4095] (R16). -/
  mem : Memory
  /-- FB[0..2047] (R17). -/
  fb : Framebuffer
  /-- OPCODE, the opcode of the last Step that fetched and completed (R18). -/
  opcode : Word
  /-- FLT, the fault latch (R19). -/
  flt : Option Fault
  /-- LOADED (R20). -/
  loaded : Bool
  /-- KEY[0..15] as sampled for the Step (R21). -/
  key : BitVec 16
  /-- The model's own: the keypad patterns the host supplies to the coming Steps, the next one first (log 18). -/
  keyInputs : List (BitVec 16)
  /-- The model's own: how many Steps have sampled the keypad (log 18). -/
  keySamples : Nat
  /-- The model's own: the bytes the injected random source delivers next (R22, log 19). -/
  rndInputs : List Byte
  /-- The model's own: how many random bytes have been drawn (log 19). -/
  draws : Nat
  deriving DecidableEq, Repr

/-- The state right after Reset (10_state.md R25). KEY is not reset by Reset and has no value of its own: 0 here, never
read before a Step samples it anew; the input fields are empty, so that the first sample and the first draw are free
values. DESIGN CHOICE, log 26 (OPCODE), log 27 (inputs). -/
def State.reset : State where
  v := Vector.replicate 16 0
  i := 0
  pc := .ofNat 16 Config.loadOrigin
  stack := Vector.replicate 16 0
  sp := 0
  dt := 0
  st := 0
  mem := []
  fb := Vector.replicate 32 0
  opcode := 0
  flt := none
  loaded := false
  key := 0
  keyInputs := []
  keySamples := 0
  rndInputs := []
  draws := 0

end Sys2Proof.Machine
end

