-- ==== Sys2Proof/Machine/Ops.lean ====
section
/-! DEFINITION. The named operations over memory, registers, stack, display, timers and inputs, the fetch, and taking
a fault. Everything an instruction does is written in these. -/

namespace Sys2Proof.Machine

/-! ### Memory (20_memory.md) -/

/-- What an address that memory does not list reads as: the contents Reset leaves, the font table at FONT_BASE and
zero elsewhere (10_state.md R25, 70_reset_and_hazards.md R150, R152). Log 28. -/
def resetByte (a : Nat) : Byte :=
  if Config.fontBase ≤ a then Config.fontData.getD (a - Config.fontBase) 0 else 0

/-- The canonical form: every listed address exists and holds something else than it reads as unlisted, and the
addresses strictly rise. -/
abbrev Memory.wf (m : Memory) : Prop :=
  m.Pairwise (fun c d => c.1 < d.1) ∧ ∀ c ∈ m, c.1 < Config.memSize ∧ c.2 ≠ resetByte c.1

/-- `MEM[a]`, the byte at one address (20_memory.md R30). -/
def Memory.read : Memory → Nat → Byte
  | [], a => resetByte a
  | (a', b) :: m, a => if a' = a then b else Memory.read m a

/-- `MEM[a] <- b`, keeping the canonical form. -/
def Memory.write : Memory → Nat → Byte → Memory
  | [], a, b => if b = resetByte a then [] else [(a, b)]
  | (a', b') :: m, a, b =>
    if a < a' then
      if b = resetByte a then (a', b') :: m else (a, b) :: (a', b') :: m
    else if a = a' then
      if b = resetByte a then m else (a, b) :: m
    else (a', b') :: Memory.write m a b

/-- The bytes at `n` ascending addresses from `a`. -/
def Memory.readMany (m : Memory) (a : Nat) : Nat → List Byte
  | 0 => []
  | n + 1 => m.read a :: Memory.readMany m (a + 1) n

/-- Store bytes at ascending addresses from `a` (20_memory.md R43). -/
def Memory.writeMany (m : Memory) (a : Nat) : List Byte → Memory
  | [] => m
  | b :: bs => Memory.writeMany (m.write a b) (a + 1) bs

/-- The range test of 20_memory.md R33 and R35 for `n ≥ 1` bytes from `addr`, made on mathematical integers: none
when every address is at most 4095, else the lowest offending address. Decision D8, D10 of the spec (log 11, 13). -/
def rangeFault (addr n : Nat) : Option Fault :=
  if addr + n ≤ Config.memSize then none
  else some (.addressOutOfRange (if Config.memSize ≤ addr then addr else Config.memSize))

/-- `MemRead(addr, n)` (20_memory.md R33). -/
def memRead (m : Memory) (addr n : Nat) : Except Fault (List Byte) :=
  match rangeFault addr n with
  | none => .ok (m.readMany addr n)
  | some f => .error f

/-- `MemWrite(addr, n, v)` with `n` the length of `v` (20_memory.md R34). -/
def memWrite (m : Memory) (addr : Nat) (v : List Byte) : Except Fault Memory :=
  match rangeFault addr v.length with
  | none => .ok (m.writeMany addr v)
  | some f => .error f

/-- `MEM[a]` of a state. -/
def State.readByte (s : State) (a : Nat) : Byte := s.mem.read a

/-- Replace memory. -/
def State.setMem (s : State) (m : Memory) : State := { s with mem := m }

/-! ### Registers (10_state.md R10, R12, R13, R15) -/

/-- `V[r]`. None of the sixteen is hardwired. -/
def State.reg (s : State) (r : Reg) : Byte := s.v[r.val]

/-- `V[r] <- b`. -/
def State.setReg (s : State) (r : Reg) (b : Byte) : State := { s with v := s.v.set r.val b }

/-- VF, the flag register (10_state.md R11). -/
def regVF : Reg := 15

/-- `V[k] <- b0, V[k+1] <- b1, ...` for the bytes of a list. -/
def loadRegs (v : Vector Byte 16) (k : Nat) : List Byte → Vector Byte 16
  | [] => v
  | b :: bs => loadRegs (v.setIfInBounds k b) (k + 1) bs

/-- Replace all general registers. -/
def State.setRegs (s : State) (v : Vector Byte 16) : State := { s with v := v }

/-- `I <- w`. -/
def State.setIndex (s : State) (w : Word) : State := { s with i := w }

/-- `PC <- w`. -/
def State.setPc (s : State) (w : Word) : State := { s with pc := w }

/-- `DT <- b`. -/
def State.setDelay (s : State) (b : Byte) : State := { s with dt := b }

/-- `ST <- b`. -/
def State.setSound (s : State) (b : Byte) : State := { s with st := b }

/-- `if c then PC <- PC + 2`: a skip adds exactly 2 (41_flow.md R78). -/
def State.skipIf (s : State) (c : Bool) : State := { s with pc := if c then s.pc + 2 else s.pc }

/-! ### Call stack (10_state.md R14) -/

/-- CALL's push: `STACK[SP] <- PC ; SP <- SP + 1`; none when the stack is full. -/
def State.pushReturn (s : State) : Option State :=
  if h : s.sp.val < Config.stackDepth then
    some { s with
      stack := s.stack.set s.sp.val s.pc h
      sp := ⟨s.sp.val + 1, by simp only [Config.stackDepth] at h; omega⟩ }
  else none

/-- RET's pop: `SP <- SP - 1 ; PC <- STACK[SP]`; none when the stack is empty. The popped entry keeps its value
(log 32). -/
def State.popReturn (s : State) : Option State :=
  if h : s.sp.val = 0 then none
  else some { s with
    sp := ⟨s.sp.val - 1, by omega⟩
    pc := s.stack[s.sp.val - 1] }

/-! ### Display buffer (10_state.md R17) -/

/-- The 64 cells of row `y`; no cell of a row outside the grid is lit. -/
def Framebuffer.row (fb : Framebuffer) (y : Nat) : BitVec 64 := fb[y]?.getD 0

/-- `FB[k]`, lit or not. -/
def Framebuffer.cell (fb : Framebuffer) (k : Nat) : Bool :=
  (fb.row (k / Config.fbWidth)).getLsbD (k % Config.fbWidth)

/-- `FB[k] <- FB[k] XOR 1`. -/
def Framebuffer.toggle (fb : Framebuffer) (k : Nat) : Framebuffer :=
  fb.setIfInBounds (k / Config.fbWidth)
    (fb.row (k / Config.fbWidth) ^^^ BitVec.twoPow 64 (k % Config.fbWidth))

/-- Every cell unlit. -/
def Framebuffer.blank : Framebuffer := Vector.replicate 32 0

/-- Replace the display buffer. -/
def State.setDisplay (s : State) (fb : Framebuffer) : State := { s with fb := fb }

/-! ### Inputs (10_state.md R21, R22) -/

/-- The keypad bits of a Step: the pattern the host has supplied for it, else a free value. -/
def State.keyInput (s : State) : BitVec 16 :=
  match s.keyInputs with
  | k :: _ => k
  | [] => Config.freeKeys s.keySamples

/-- Sample the keypad: KEY has one value for the whole Step (40_step_cycle.md R68). -/
def State.sampleKeys (s : State) : State :=
  { s with key := s.keyInput, keyInputs := s.keyInputs.tail, keySamples := s.keySamples + 1 }

/-- The byte of the next draw: what the injected source delivers, else a free value. -/
def State.rndInput (s : State) : Byte :=
  match s.rndInputs with
  | b :: _ => b
  | [] => Config.freeRandom s.draws

/-- Consume one draw. -/
def State.consumeDraw (s : State) : State :=
  { s with rndInputs := s.rndInputs.tail, draws := s.draws + 1 }

/-! ### Taking a fault (60_exceptions.md R126 to R131) -/

/-- The numeric code of a cause (60_exceptions.md R126; the spec's decision D20, log 33). -/
def Fault.code : Fault → Nat
  | .addressOutOfRange _ => 1
  | .stackOverflow _ => 2
  | .stackUnderflow _ => 3
  | .displayOutOfRange _ => 4
  | .keyIndexOutOfRange _ => 5
  | .romLoadError _ => 6

/-- The value a fault records (60_exceptions.md R126). -/
def Fault.info : Fault → Nat
  | .addressOutOfRange a => a
  | .stackOverflow a => a
  | .stackUnderflow a => a
  | .displayOutOfRange k => k
  | .keyIndexOutOfRange x => x
  | .romLoadError n => n

/-- `raise <Fault>(info)`: the operation ends with the fault latched in FLT and no other change (60_exceptions.md R128,
R129). Every handler raises before it writes. There is no return from a fault: only Reset clears the latch (R131),
`hostReset` in Machine/HostOps.lean. -/
def State.raise (s : State) (f : Fault) : State := { s with flt := some f }

/-- Of a fault-or-result: on a fault raise it, else go on with the result. -/
def State.orRaise {α : Type} (s : State) (r : Except Fault α) (k : α → State) : State :=
  match r with
  | .ok a => k a
  | .error f => s.raise f

/-! ### The phases of a Step around the handler (40_step_cycle.md R60) -/

/-- Phase 1, fetch (R61): the big-endian word at PC, range-checked like any other access. -/
def fetchOpcode (s : State) : Except Fault Word :=
  match rangeFault s.pc.toNat 2 with
  | none => .ok (joinBytes (s.readByte s.pc.toNat) (s.readByte (s.pc.toNat + 1)))
  | some f => .error f

/-- What a handler starts from: the keypad sampled, `OPCODE <- op`, and phase 2, `PC <- PC + 2` (R62). -/
def State.enterHandler (s : State) (op : Word) : State :=
  { s.sampleKeys with opcode := op, pc := s.pc + 2 }

/-- A timer's decrement: one down, floor at 0 (R64). -/
def tick (t : Byte) : Byte := if t = 0 then 0 else t - 1

/-- Phase 4, timers (R64). -/
def State.tickTimers (s : State) : State := { s with dt := tick s.dt, st := tick s.st }

/-- The end of a Step that began in `s` and whose handler left `t`. If the handler raised a fault, none of the Step's
changes is kept but the latch (60_exceptions.md R128, the spec's decision D8, log 11); else the timers tick. -/
def State.endStep (s t : State) : State :=
  match t.flt with
  | some f => s.raise f
  | none => t.tickTimers

end Sys2Proof.Machine
end

