-- ==== Sys2Proof/Machine/Operands.lean ====
section
/-! DEFINITION. The operand forms: registers named by X and Y are `State.reg`; immediates are zero-extended
(30_encoding.md R53); the one data addressing mode is I plus an offset (43_index_memory.md R101); key indices
(45_keypad_timers.md R121). -/

namespace Sys2Proof.Machine

/-- `zext_16(NNN)`: a 12-bit immediate as an address, used as it is (30_encoding.md R53). -/
def immAddress (nnn : Imm12) : Word := nnn.setWidth 16

/-- `zext_16(x)` of a register value. -/
def extendByte (b : Byte) : Word := b.setWidth 16

/-- I as the base of a data access: a mathematical integer, never reduced before the range test (43_index_memory.md
R101, 20_memory.md R33). -/
def State.base (s : State) : Nat := s.i.toNat

/-- How many registers V0..VX a DUMP or LOAD moves (30_encoding.md R53). -/
def regCount (x : Reg) : Nat := x.val + 1

/-- The values of V0..VX, V0 first. -/
def State.firstRegs (s : State) (x : Reg) : List Byte := s.v.toList.take (regCount x)

/-- `A`, the address of the instruction's own opcode, seen by a handler (41_flow.md, template): the advanced PC
less 2. Log 31. -/
def State.opcodeAddress (s : State) : Nat := (s.pc - 2).toNat

/-- `KEY[k]` as sampled for this Step. -/
def State.keyPressed (s : State) (k : Nat) : Bool := s.key.getLsbD k

/-- A register value as a key index: the whole 8 bits, a fault above 15, never masked (45_keypad_timers.md R121, the
spec's decision D11, log 14). -/
def keyIndex (x : Byte) : Except Fault Nat :=
  if x.toNat ≤ 15 then .ok x.toNat else .error (.keyIndexOutOfRange x.toNat)

/-- The smallest pressed key index, scanning 0 to 15 in ascending order (45_keypad_timers.md R118). -/
def State.firstKey (s : State) : Option Nat := (List.range 16).find? s.keyPressed

end Sys2Proof.Machine
end

