-- ==== Sys2Proof/Machine/Alu.lean ====
section
/-! DEFINITION. Register load, arithmetic, logic, shifts and random (42_alu.md). Sources are read before any write, the
writes are made in the order the rule lists them, and of two writes to one register the later stands (40_step_cycle.md
R66, the spec's decision D13, log 16). Arithmetic is modulo 256 (R91). -/

namespace Sys2Proof.Machine

/-- LDI (42_alu.md R79). -/
def execLdi (x : Reg) (nn : Byte) (s : State) : Host.Outcome State Fault Refusal :=
  .next (s.setReg x nn)

/-- ADDI (42_alu.md R80): no flag. -/
def execAddi (x : Reg) (nn : Byte) (s : State) : Host.Outcome State Fault Refusal :=
  .next (s.setReg x (s.reg x + nn))

/-- MOV (42_alu.md R81). -/
def execMov (x y : Reg) (s : State) : Host.Outcome State Fault Refusal :=
  .next (s.setReg x (s.reg y))

/-- OR (42_alu.md R82): VF is not written. -/
def execOr (x y : Reg) (s : State) : Host.Outcome State Fault Refusal :=
  .next (s.setReg x (s.reg x ||| s.reg y))

/-- AND (42_alu.md R83): VF is not written. -/
def execAnd (x y : Reg) (s : State) : Host.Outcome State Fault Refusal :=
  .next (s.setReg x (s.reg x &&& s.reg y))

/-- XOR (42_alu.md R84): VF is not written. -/
def execXor (x y : Reg) (s : State) : Host.Outcome State Fault Refusal :=
  .next (s.setReg x (s.reg x ^^^ s.reg y))

/-- ADD (42_alu.md R85): VF, then VX. -/
def execAdd (x y : Reg) (s : State) : Host.Outcome State Fault Refusal :=
  .next ((s.setReg regVF (carryFlag (s.reg x) (s.reg y))).setReg x (s.reg x + s.reg y))

/-- SUB (42_alu.md R86): VF, then VX; the flag is the strict VX > VY. -/
def execSub (x y : Reg) (s : State) : Host.Outcome State Fault Refusal :=
  .next ((s.setReg regVF (greaterFlag (s.reg x) (s.reg y))).setReg x (s.reg x - s.reg y))

/-- SHR (42_alu.md R87): reads VY; VX, then VF; the flag is 1 for an even VY. -/
def execShr (x y : Reg) (s : State) : Host.Outcome State Fault Refusal :=
  .next ((s.setReg x (s.reg y >>> 1)).setReg regVF (evenFlag (s.reg y)))

/-- SUBN (42_alu.md R88): VF, then VX; the flag is the same VX > VY as SUB's. -/
def execSubn (x y : Reg) (s : State) : Host.Outcome State Fault Refusal :=
  .next ((s.setReg regVF (greaterFlag (s.reg x) (s.reg y))).setReg x (s.reg y - s.reg x))

/-- SHL (42_alu.md R89): reads VY; VF, then VX. -/
def execShl (x y : Reg) (s : State) : Host.Outcome State Fault Refusal :=
  .next ((s.setReg regVF (highBitFlag (s.reg y))).setReg x (s.reg y <<< 1))

/-- RND (42_alu.md R90): this draw's byte, masked; the draw is consumed. -/
def execRnd (x : Reg) (nn : Byte) (s : State) : Host.Outcome State Fault Refusal :=
  .next (s.consumeDraw.setReg x (s.rndInput &&& nn))

end Sys2Proof.Machine
end

