-- ==== Sys2Proof/Machine/Display.lean ====
section
/-! DEFINITION. Display instructions (44_display.md): CLS and DRW, DRW for all four values of DRAW_EDGE (R108). -/

namespace Sys2Proof.Machine

open Sys2Proof.Config (DrawEdge)

/-- CLS (44_display.md R105). -/
def execCls (s : State) : Host.Outcome State Fault Refusal :=
  .next (s.setDisplay Framebuffer.blank)

/-- `k = 64*y + x` of an unwrapped position (44_display.md R108). -/
def denseIndex (x y : Nat) : Nat := Config.fbWidth * y + x

/-- An unwrapped position is on the grid: `x ≤ 63 and y ≤ 31` (44_display.md R108). -/
def onGrid (x y : Nat) : Bool := decide (x < Config.fbWidth) && decide (y < Config.fbHeight)

/-- `CellOf` with its fault test (44_display.md R107, R108), for the unwrapped position `(x0 + c, y0 + r)` of a set
bit: the cell to toggle, none for a bit that is ignored, or the fault. -/
def cellOf (edge : DrawEdge) (x y : Nat) : Except Fault (Option Nat) :=
  match edge with
  | .linear =>
    if denseIndex x y < Config.fbWidth * Config.fbHeight then .ok (some (denseIndex x y))
    else .error (.displayOutOfRange (denseIndex x y))
  | .wrap => .ok (some (denseIndex (x % Config.fbWidth) (y % Config.fbHeight)))
  | .clip => .ok (if onGrid x y then some (denseIndex x y) else none)
  | .fault =>
    if onGrid x y then .ok (some (denseIndex x y)) else .error (.displayOutOfRange (denseIndex x y))

/-- The columns of a row byte whose bit is set, ascending: column c is bit 7 − c (44_display.md R106, the spec's
decision D5, log 9). -/
def setColumns (b : Byte) : List Nat := (List.range 8).filter fun c => b.getLsbD (7 - c)

/-- The offsets (r, c) of the set bits of a sprite whose first row is row `r`: rows ascending, columns ascending. -/
def setOffsets (r : Nat) : List Byte → List (Nat × Nat)
  | [] => []
  | b :: rows => (setColumns b).map (fun c => (r, c)) ++ setOffsets (r + 1) rows

/-- The cells of the set bits in loop order, or the fault of the first that has one (44_display.md R107,
60_exceptions.md R136). -/
def cellsOf (edge : DrawEdge) (x0 y0 : Nat) : List (Nat × Nat) → Except Fault (List Nat)
  | [] => .ok []
  | (r, c) :: rest =>
    match cellOf edge (x0 + c) (y0 + r) with
    | .error f => .error f
    | .ok k =>
      match cellsOf edge x0 y0 rest with
      | .error f => .error f
      | .ok ks => .ok (k.toList ++ ks)

/-- The rows of a sprite: none for N = 0, which reads no memory (44_display.md R107 (a), the spec's decision D23,
log 22). -/
def spriteRows (s : State) (n : RowCount) : Except Fault (List Byte) :=
  if n.val = 0 then .ok [] else memRead s.mem s.base n.val

/-- The cells a draw toggles, in loop order: the start position wrapped once, the rows read, then every set bit mapped
(44_display.md R107). -/
def drawCells (edge : DrawEdge) (x y : Byte) (n : RowCount) (s : State) : Except Fault (List Nat) :=
  match spriteRows s n with
  | .error f => .error f
  | .ok rows => cellsOf edge (x.toNat % Config.fbWidth) (y.toNat % Config.fbHeight) (setOffsets 0 rows)

/-- Toggle cells in order; the Bool becomes true when a cell about to be toggled is lit (44_display.md R107). -/
def toggleCells (fb : Framebuffer) (hit : Bool) : List Nat → Framebuffer × Bool
  | [] => (fb, hit)
  | k :: ks => toggleCells (fb.toggle k) (hit || fb.cell k) ks

/-- DRW for a given DRAW_EDGE: every fault is found before VF or a cell is written (44_display.md R107). -/
def drawSprite (edge : DrawEdge) (x y : Reg) (n : RowCount) (s : State) : State :=
  s.orRaise (drawCells edge (s.reg x) (s.reg y) n s) fun cells =>
    (s.setDisplay (toggleCells s.fb false cells).1).setReg regVF
      (collisionFlag (toggleCells s.fb false cells).2)

/-- DRW (44_display.md R107) with the DRAW_EDGE of this hardware (R108). -/
def execDrw (x y : Reg) (n : RowCount) (s : State) : Host.Outcome State Fault Refusal :=
  .next (drawSprite Config.drawEdge x y n s)

end Sys2Proof.Machine
end

