-- ==== Sys2Proof/Machine/Flow.lean ====
section
/-! DEFINITION. Control transfer (41_flow.md) and NOP (40_step_cycle.md R65). A handler starts with PC already advanced
by 2; no target is checked, masked or aligned (R78). -/

namespace Sys2Proof.Machine

/-- RET (41_flow.md R70). -/
def execRet (s : State) : Host.Outcome State Fault Refusal :=
  .next (match s.popReturn with
    | some t => t
    | none => s.raise (.stackUnderflow s.opcodeAddress))

/-- JP (41_flow.md R71). -/
def execJp (nnn : Imm12) (s : State) : Host.Outcome State Fault Refusal :=
  .next (s.setPc (immAddress nnn))

/-- CALL (41_flow.md R72): the pushed address is the advanced PC. -/
def execCall (nnn : Imm12) (s : State) : Host.Outcome State Fault Refusal :=
  .next (match s.pushReturn with
    | some t => t.setPc (immAddress nnn)
    | none => s.raise (.stackOverflow s.opcodeAddress))

/-- SE (41_flow.md R73). -/
def execSe (x : Reg) (nn : Byte) (s : State) : Host.Outcome State Fault Refusal :=
  .next (s.skipIf (s.reg x == nn))

/-- SNE (41_flow.md R74). -/
def execSne (x : Reg) (nn : Byte) (s : State) : Host.Outcome State Fault Refusal :=
  .next (s.skipIf (s.reg x != nn))

/-- SER (41_flow.md R75). -/
def execSer (x y : Reg) (s : State) : Host.Outcome State Fault Refusal :=
  .next (s.skipIf (s.reg x == s.reg y))

/-- SNER (41_flow.md R76). -/
def execSner (x y : Reg) (s : State) : Host.Outcome State Fault Refusal :=
  .next (s.skipIf (s.reg x != s.reg y))

/-- JPV0 (41_flow.md R77): the offset register is always V0; the sum is not reduced modulo 4096. -/
def execJpv0 (nnn : Imm12) (s : State) : Host.Outcome State Fault Refusal :=
  .next (s.setPc (immAddress nnn + extendByte (s.reg 0)))

/-- NOP (40_step_cycle.md R65): the handler of every unmapped opcode changes nothing. -/
def execNop (s : State) : Host.Outcome State Fault Refusal :=
  .next s

end Sys2Proof.Machine
end

