-- ==== Sys2Proof/Machine/Index.lean ====
section
/-! DEFINITION. Index register and memory instructions (43_index_memory.md). The range check is made at the access and
before anything is written (20_memory.md R35). -/

namespace Sys2Proof.Machine

/-- LDIX (43_index_memory.md R95). -/
def execLdix (nnn : Imm12) (s : State) : Host.Outcome State Fault Refusal :=
  .next (s.setIndex (immAddress nnn))

/-- ADDIX (43_index_memory.md R96): modulo 65536 (the spec's decision D10, log 13), no flag, no fault. -/
def execAddix (x : Reg) (s : State) : Host.Outcome State Fault Refusal :=
  .next (s.setIndex (s.i + extendByte (s.reg x)))

/-- The address FONT computes: FONT_BASE plus five times the whole 8-bit VX (43_index_memory.md R97). -/
def glyphAddress (x : Byte) : Word := .ofNat 16 (Config.fontBase + 5 * x.toNat)

/-- FONT (43_index_memory.md R97). -/
def execFont (x : Reg) (s : State) : Host.Outcome State Fault Refusal :=
  .next (s.setIndex (glyphAddress (s.reg x)))

/-- The three decimal digits of a byte, hundreds first (43_index_memory.md R98). -/
def bcdDigits (x : Byte) : List Byte :=
  [.ofNat 8 (x.toNat / 100), .ofNat 8 (x.toNat / 10 % 10), .ofNat 8 (x.toNat % 10)]

/-- BCD (43_index_memory.md R98): I is unchanged. -/
def execBcd (x : Reg) (s : State) : Host.Outcome State Fault Refusal :=
  .next (s.orRaise (memWrite s.mem s.base (bcdDigits (s.reg x))) fun m => s.setMem m)

/-- `trunc_16(i0 + X + 1)`: I after a DUMP or LOAD (43_index_memory.md R99, R100). -/
def State.indexPast (s : State) (x : Reg) : Word := .ofNat 16 (s.base + regCount x)

/-- DUMP (43_index_memory.md R99): V0 at the lowest address, then I past the last byte. -/
def execDump (x : Reg) (s : State) : Host.Outcome State Fault Refusal :=
  .next (s.orRaise (memWrite s.mem s.base (s.firstRegs x)) fun m => (s.setMem m).setIndex (s.indexPast x))

/-- LOAD (43_index_memory.md R100): V0 from the lowest address, then I past the last byte. -/
def execLoad (x : Reg) (s : State) : Host.Outcome State Fault Refusal :=
  .next (s.orRaise (memRead s.mem s.base (regCount x)) fun bs =>
    (s.setRegs (loadRegs s.v 0 bs)).setIndex (s.indexPast x))

end Sys2Proof.Machine
end

