-- ==== Sys2Proof/Machine/Keypad.lean ====
section
/-! DEFINITION. Keypad and timer instructions (45_keypad_timers.md). The timers' decrement comes after the handler, in
`State.endStep`. -/

namespace Sys2Proof.Machine

/-- SKP (45_keypad_timers.md R115). -/
def execSkp (x : Reg) (s : State) : Host.Outcome State Fault Refusal :=
  .next (s.orRaise (keyIndex (s.reg x)) fun k => s.skipIf (s.keyPressed k))

/-- SKNP (45_keypad_timers.md R116). -/
def execSknp (x : Reg) (s : State) : Host.Outcome State Fault Refusal :=
  .next (s.orRaise (keyIndex (s.reg x)) fun k => s.skipIf (!s.keyPressed k))

/-- LDVDT (45_keypad_timers.md R117). -/
def execLdvdt (x : Reg) (s : State) : Host.Outcome State Fault Refusal :=
  .next (s.setReg x s.dt)

/-- WKEY (45_keypad_timers.md R118): the lowest pressed key, or back to this instruction. -/
def execWkey (x : Reg) (s : State) : Host.Outcome State Fault Refusal :=
  .next (match s.firstKey with
    | some k => s.setReg x (.ofNat 8 k)
    | none => s.setPc (s.pc - 2))

/-- LDDT (45_keypad_timers.md R119). -/
def execLddt (x : Reg) (s : State) : Host.Outcome State Fault Refusal :=
  .next (s.setDelay (s.reg x))

/-- LDST (45_keypad_timers.md R120). -/
def execLdst (x : Reg) (s : State) : Host.Outcome State Fault Refusal :=
  .next (s.setSound (s.reg x))

end Sys2Proof.Machine
end

