-- ==== Sys2Proof/Machine/Dispatch.lean ====
section
/-! DEFINITION. Phase 3 of a Step (40_step_cycle.md R63): exactly one handler per instruction. -/

namespace Sys2Proof.Machine

-- The state a handler starts from is that of State.enterHandler: PC already advanced by 2.
def exec (i : Instr) (s : State) : Host.Outcome State Fault Refusal :=
  match i with
  | .cls => Sys2Proof.Machine.execCls s
  | .ret => Sys2Proof.Machine.execRet s
  | .jp nnn => Sys2Proof.Machine.execJp nnn s
  | .call nnn => Sys2Proof.Machine.execCall nnn s
  | .se x nn => Sys2Proof.Machine.execSe x nn s
  | .sne x nn => Sys2Proof.Machine.execSne x nn s
  | .ser x y => Sys2Proof.Machine.execSer x y s
  | .ldi x nn => Sys2Proof.Machine.execLdi x nn s
  | .addi x nn => Sys2Proof.Machine.execAddi x nn s
  | .mov x y => Sys2Proof.Machine.execMov x y s
  | .or x y => Sys2Proof.Machine.execOr x y s
  | .and x y => Sys2Proof.Machine.execAnd x y s
  | .xor x y => Sys2Proof.Machine.execXor x y s
  | .add x y => Sys2Proof.Machine.execAdd x y s
  | .sub x y => Sys2Proof.Machine.execSub x y s
  | .shr x y => Sys2Proof.Machine.execShr x y s
  | .subn x y => Sys2Proof.Machine.execSubn x y s
  | .shl x y => Sys2Proof.Machine.execShl x y s
  | .sner x y => Sys2Proof.Machine.execSner x y s
  | .ldix nnn => Sys2Proof.Machine.execLdix nnn s
  | .jpv0 nnn => Sys2Proof.Machine.execJpv0 nnn s
  | .rnd x nn => Sys2Proof.Machine.execRnd x nn s
  | .drw x y n => Sys2Proof.Machine.execDrw x y n s
  | .skp x => Sys2Proof.Machine.execSkp x s
  | .sknp x => Sys2Proof.Machine.execSknp x s
  | .ldvdt x => Sys2Proof.Machine.execLdvdt x s
  | .wkey x => Sys2Proof.Machine.execWkey x s
  | .lddt x => Sys2Proof.Machine.execLddt x s
  | .ldst x => Sys2Proof.Machine.execLdst x s
  | .addix x => Sys2Proof.Machine.execAddix x s
  | .font x => Sys2Proof.Machine.execFont x s
  | .bcd x => Sys2Proof.Machine.execBcd x s
  | .dump x => Sys2Proof.Machine.execDump x s
  | .load x => Sys2Proof.Machine.execLoad x s
  | .nop _ => Sys2Proof.Machine.execNop s

end Sys2Proof.Machine
end

