-- ==== Sys2Proof/Machine/Step.lean ====
section
/-! DEFINITION. The Step operation (40_step_cycle.md R60, R67) and where a word is placed for the next Step to fetch. -/

namespace Sys2Proof.Machine

/-- `Step` (40_step_cycle.md R60). Admission (R67): a latched fault is answered again with no state change
(60_exceptions.md R131), a Step before a successful LoadProgram has no meaning (70_reset_and_hazards.md R157). Then
fetch, advance, dispatch and execute, timers. A Step that faults answers the state before it with the fault latched
(60_exceptions.md R128, R129; log 2). -/
def step (s : State) : Host.Outcome State Fault Refusal :=
  match s.flt with
  | some f => .fault f
  | none =>
    if s.loaded then
      match fetchOpcode s with
      | .error f => .next (s.raise f)
      | .ok op =>
        match exec (decodeOpcode op) (s.enterHandler op) with
        | .next t => .next (s.endStep t)
        | .fault f => .fault f
        | .refused r => .refused r
    else .refused .stepBeforeLoad

/-- Where the next fetch reads: PC, or LOAD_ORIGIN when nothing can be fetched at PC (40_step_cycle.md R61). -/
def State.fetchAddress (s : State) : Word :=
  if s.pc.toNat + 2 ≤ Config.memSize then s.pc else .ofNat 16 Config.loadOrigin

/-- `s` with the 16-bit word `w` (its low `nbits` bits) placed where the next Step fetches, high byte first, and with
what the Step's admission needs: a program counts as loaded and no fault is latched. It stands for LoadProgram, which
is how a program comes to run from reset (log 1). -/
def State.withFetchWord (s : State) (nbits w : Nat) : State :=
  let op : Word := .ofNat 16 (w % 2 ^ nbits)
  { s with
    mem := s.mem.writeMany s.fetchAddress.toNat [highByte op, lowByte op]
    pc := s.fetchAddress
    flt := none
    loaded := true }

end Sys2Proof.Machine
end

