-- ==== Sys2Proof/Machine/HostOps.lean ====
section
/-! DEFINITION. The host interface (60_exceptions.md R145): Reset, LoadProgram, write keypad, the random source, read
display, and Step with its result. They happen between Steps only (40_step_cycle.md R68). -/

namespace Sys2Proof.Machine

/-- `Reset` (70_reset_and_hazards.md R150): every field the core owns at its reset value; the only operation that
clears FLT (60_exceptions.md R131). It does not touch KEY and draws no random byte. -/
def hostReset (s : State) : State :=
  { State.reset with
    key := s.key
    keyInputs := s.keyInputs
    keySamples := s.keySamples
    rndInputs := s.rndInputs
    draws := s.draws }

/-- The capacity for a program: MEM_SIZE − LOAD_ORIGIN (20_memory.md R32). -/
def programCapacity : Nat := Config.memSize - Config.loadOrigin

/-- `LoadProgram(bytes)` (70_reset_and_hazards.md R155 to R157). Admission: a latched fault is answered again, a second
load has no meaning. A sequence that is too long latches RomLoadError and writes nothing (60_exceptions.md R135). -/
def loadProgram (bytes : List Byte) (s : State) : Host.Outcome State Fault Refusal :=
  match s.flt with
  | some f => .fault f
  | none =>
    if s.loaded then .refused .secondLoad
    else if programCapacity < bytes.length then .next (s.raise (.romLoadError bytes.length))
    else .next { s with mem := s.mem.writeMany Config.loadOrigin bytes, loaded := true }

/-- Write keypad (60_exceptions.md R145): nothing happens until the next Step, which samples these sixteen bits. -/
def writeKeypad (k : BitVec 16) (s : State) : State := { s with keyInputs := k :: s.keyInputs.tail }

/-- The injected random source is given one more byte to deliver (10_state.md R22). -/
def supplyRandom (b : Byte) (s : State) : State := { s with rndInputs := s.rndInputs ++ [b] }

/-- Read display (44_display.md R110): the dense sequence of the 2048 cell states; reading changes nothing. -/
def readDisplay (s : State) : List Bool := (List.range (Config.fbWidth * Config.fbHeight)).map s.fb.cell

/-- What an operation answers its caller (60_exceptions.md R127). -/
inductive Result where
  | ok
  | fault (f : Fault)
  | notAdmitted (r : Refusal)
  deriving DecidableEq, Repr

/-- The result of an operation: a state whose latch it set is the fault it reports (60_exceptions.md R127, R129), and
a latched fault is reported again (R131). -/
def resultOf : Host.Outcome State Fault Refusal → Result
  | .next t => match t.flt with
    | some f => .fault f
    | none => .ok
  | .fault f => .fault f
  | .refused r => .notAdmitted r

/-- The state an operation leaves: a refused operation and one that answers a latched fault change nothing
(70_reset_and_hazards.md R157). -/
def stateAfter (s : State) : Host.Outcome State Fault Refusal → State
  | .next t => t
  | .fault _ => s
  | .refused _ => s

/-- `Step` as the host sees it: the state after it and its result. -/
def hostStep (s : State) : State × Result := (stateAfter s (step s), resultOf (step s))

/-- The operations that the host may invoke between Steps, and Step itself (60_exceptions.md R145; reading the display
changes nothing and is no entry). -/
inductive HostOp where
  | reset
  | loadProgram (bytes : List Byte)
  | writeKeypad (k : BitVec 16)
  | supplyRandom (b : Byte)
  | step
  deriving DecidableEq, Repr

/-- The state after one host operation. -/
def applyOp (s : State) : HostOp → State
  | .reset => hostReset s
  | .loadProgram bytes => stateAfter s (Sys2Proof.Machine.loadProgram bytes s)
  | .writeKeypad k => Sys2Proof.Machine.writeKeypad k s
  | .supplyRandom b => Sys2Proof.Machine.supplyRandom b s
  | .step => stateAfter s (Sys2Proof.Machine.step s)

end Sys2Proof.Machine
end

