-- ==== Sys2Proof/Safety.lean ====
section
/-! DEFINITION. The terms in which claims are made: which parts of the state an operation may change, when a Step
completes or faults, and the invariant of the machine. -/

namespace Sys2Proof.Machine

/-- The parts of the state, for frames. -/
inductive Part where
  | regs | index | pc | sp | stack | delay | sound | memory | display | opcode | latch | loaded | keypad | random
  deriving DecidableEq, Repr

/-- A part is the same in two states. Memory is compared byte by byte through the read of one byte. -/
def Part.same (s t : State) : Part → Prop
  | .regs => ∀ r, t.reg r = s.reg r
  | .index => t.i = s.i
  | .pc => t.pc = s.pc
  | .sp => t.sp = s.sp
  | .stack => t.stack = s.stack
  | .delay => t.dt = s.dt
  | .sound => t.st = s.st
  | .memory => ∀ a, t.readByte a = s.readByte a
  | .display => ∀ k, t.fb.cell k = s.fb.cell k
  | .opcode => t.opcode = s.opcode
  | .latch => t.flt = s.flt
  | .loaded => t.loaded = s.loaded
  | .keypad => t.key = s.key ∧ t.keyInputs = s.keyInputs ∧ t.keySamples = s.keySamples
  | .random => t.rndInputs = s.rndInputs ∧ t.draws = s.draws

/-- Going from `s` to `t` nothing changed but, perhaps, the listed parts. -/
def UnchangedExcept (parts : List Part) (s t : State) : Prop := ∀ p, p ∉ parts → p.same s t

/-- The parts that the handler of each instruction may change (10_state.md R10 to R17, the "State written" lines of the
instruction rules), with the latch for those that can fault (60_exceptions.md R126). -/
def mayChange : Instr → List Part
  | .cls => [.display]
  | .ret => [.sp, .pc, .latch]
  | .jp _ => [.pc]
  | .call _ => [.stack, .sp, .pc, .latch]
  | .se _ _ => [.pc]
  | .sne _ _ => [.pc]
  | .ser _ _ => [.pc]
  | .ldi _ _ => [.regs]
  | .addi _ _ => [.regs]
  | .mov _ _ => [.regs]
  | .or _ _ => [.regs]
  | .and _ _ => [.regs]
  | .xor _ _ => [.regs]
  | .add _ _ => [.regs]
  | .sub _ _ => [.regs]
  | .shr _ _ => [.regs]
  | .subn _ _ => [.regs]
  | .shl _ _ => [.regs]
  | .sner _ _ => [.pc]
  | .ldix _ => [.index]
  | .jpv0 _ => [.pc]
  | .rnd _ _ => [.regs, .random]
  | .drw _ _ _ => [.regs, .display, .latch]
  | .skp _ => [.pc, .latch]
  | .sknp _ => [.pc, .latch]
  | .ldvdt _ => [.regs]
  | .wkey _ => [.regs, .pc]
  | .lddt _ => [.delay]
  | .ldst _ => [.sound]
  | .addix _ => [.index]
  | .font _ => [.index]
  | .bcd _ => [.memory, .latch]
  | .dump _ => [.memory, .index, .latch]
  | .load _ => [.regs, .index, .latch]
  | .nop _ => []

/-- The Step from `s` completes and leaves `t`: it answers a next state and no fault is latched (60_exceptions.md
R127). -/
def StepCompletes (s t : State) : Prop := step s = .next t ∧ t.flt = none

/-- The Step from `s` faults with `f` and leaves `t` (60_exceptions.md R129). -/
def StepFaults (s t : State) (f : Fault) : Prop := step s = .next t ∧ t.flt = some f

/-- The instruction that the next Step fetches, if its fetch is in range (40_step_cycle.md R61, R63). -/
def nextInstr (s : State) : Option Instr :=
  match fetchOpcode s with
  | .ok op => some (decodeOpcode op)
  | .error _ => none

/-- A Step is admitted (40_step_cycle.md R67). -/
def Admitted (s : State) : Prop := s.flt = none ∧ s.loaded = true

/-- PC after a Step that executes `i` from `s` and completes (10_state.md R13): the list of how each instruction
changes PC beyond the fetch's +2. -/
def pcAfter (i : Instr) (s : State) : Word :=
  let next := s.pc + 2
  let skip (c : Bool) : Word := if c then next + 2 else next
  match i with
  | .jp nnn => nnn.setWidth 16
  | .call nnn => nnn.setWidth 16
  | .ret => (s.stack[s.sp.val - 1]?).getD 0
  | .jpv0 nnn => nnn.setWidth 16 + (s.reg 0).setWidth 16
  | .se x nn => skip (s.reg x == nn)
  | .sne x nn => skip (s.reg x != nn)
  | .ser x y => skip (s.reg x == s.reg y)
  | .sner x y => skip (s.reg x != s.reg y)
  | .skp x => skip (s.keyInput.getLsbD (s.reg x).toNat)
  | .sknp x => skip (!s.keyInput.getLsbD (s.reg x).toNat)
  | .wkey _ => if s.keyInput = 0 then s.pc else next
  | .cls => next
  | .ldi _ _ => next
  | .addi _ _ => next
  | .mov _ _ => next
  | .or _ _ => next
  | .and _ _ => next
  | .xor _ _ => next
  | .add _ _ => next
  | .sub _ _ => next
  | .shr _ _ => next
  | .subn _ _ => next
  | .shl _ _ => next
  | .ldix _ => next
  | .rnd _ _ => next
  | .drw _ _ _ => next
  | .ldvdt _ => next
  | .lddt _ => next
  | .ldst _ => next
  | .addix _ => next
  | .font _ => next
  | .bcd _ => next
  | .dump _ => next
  | .load _ => next
  | .nop _ => next

/-- Bit (r, c) of the sprite a DRW would read in `s`: row r is the byte at I + r, column c is its bit 7 − c
(44_display.md R106). -/
def spriteBit (s : State) (r c : Nat) : Bool := (s.readByte (s.i.toNat + r)).getLsbD (7 - c)

/-- The unwrapped column and row of bit (r, c) of a DRW at VX, VY: the start position is wrapped once (44_display.md
R107). -/
def drawColumn (s : State) (x : Reg) (c : Nat) : Nat := (s.reg x).toNat % 64 + c

/-- See `drawColumn`. -/
def drawRow (s : State) (y : Reg) (r : Nat) : Nat := (s.reg y).toNat % 32 + r

/-- A DRW of N rows at VX, VY has a set bit whose dense index `64*(y0 + r) + (x0 + c)` is k (44_display.md R107). -/
def SetBitAt (s : State) (x y : Reg) (n : RowCount) (k : Nat) : Prop :=
  ∃ r c, r < n.val ∧ c < 8 ∧ spriteBit s r c = true ∧ k = 64 * drawRow s y r + drawColumn s x c

/-- The sprite rows of a DRW of N rows are in memory; N = 0 reads none (44_display.md R107). -/
def SpriteInMemory (s : State) (n : RowCount) : Prop := n.val = 0 ∨ s.i.toNat + n.val ≤ 4096

/-- The latch agrees with the lifecycle of 70_reset_and_hazards.md R157: a RomLoadError is a failed load, of a length
beyond the capacity, and every other fault is a Step's, after a load. -/
def latchConsistent (s : State) : Bool :=
  match s.flt with
  | none => true
  | some (.romLoadError n) => !s.loaded && decide (programCapacity < n)
  | some _ => s.loaded

/-- The invariant of the machine: memory is canonical; PC never exceeds 0x10FE (10_state.md R13); every valid stack
entry is a return address, at most 4096 (41_flow.md R70, R72); the latch agrees with the lifecycle. -/
def MachineInv (s : State) : Prop :=
  s.mem.wf ∧ s.pc.toNat ≤ 0x10FE ∧ (∀ j : Fin 16, j.val < s.sp.val → s.stack[j.val].toNat ≤ 4096) ∧
  latchConsistent s = true

end Sys2Proof.Machine
end

