-- ==== Sys2Proof/Certificates/Slice0/Obligations.lean ====
section
/-! DEFINITION. The statements for the provers, in the order of the spec's files. A docstring names the rule; where it
names a decision D<n>, the clause rests on the spec's own choice (92_eei_decisions.md), logged under the number given.
The first clause of an instruction's statement is its encoding as its rule gives it; the rule takes the number from R47,
which has it from general knowledge (D4, log 8). -/

open Sys2Proof Sys2Proof.Machine

/-! ### Encoding and decoding (30_encoding.md) -/

/-- Words written out from the encodings of R47 (numbers from general knowledge, D4, log 8) decode to what they stand
for, ignored bits included (R50). -/
def Obligations.WrittenOutWordsDecode : Prop :=
  decodeOpcode 0x00E0 = .cls ∧ decodeOpcode 0x0120 = .cls ∧ decodeOpcode 0x0ABE = .ret ∧
  decodeOpcode 0x1ABC = .jp 0xABC ∧ decodeOpcode 0x3307 = .se 3 7 ∧ decodeOpcode 0x512F = .ser 1 2 ∧
  decodeOpcode 0x8124 = .add 1 2 ∧ decodeOpcode 0x812E = .shl 1 2 ∧ decodeOpcode 0xC30F = .rnd 3 0x0F ∧
  decodeOpcode 0xD125 = .drw 1 2 5 ∧ decodeOpcode 0xE40E = .skp 4 ∧ decodeOpcode 0xE4F1 = .sknp 4 ∧
  decodeOpcode 0xF333 = .bcd 3 ∧ decodeOpcode 0xF065 = .load 0 ∧ decodeOpcode 0x8008 = .nop 0x8008 ∧
  decode [0x12, 0x08] = .ok (.jp 0x208, []) ∧ decode [0x12] = .error .truncated

/-- Decode and encode agree, for every well-formed instruction and every operand: as words and as bytes in front of
any others. -/
def Obligations.DecodeOfEncodeIsTheInstruction : Prop :=
  ∀ i : Instr, i.wellFormed = true →
    decodeOpcode (encode i) = i ∧ ∀ rest, decode (encodeBytes i ++ rest) = .ok (i, rest)

/-- Decoding is total (R49) and lands in the well-formed instructions; the canonical word of what an opcode decodes to
has the same meaning as the opcode. -/
def Obligations.EveryOpcodeHasAWellFormedMeaning : Prop :=
  ∀ op : Word, (decodeOpcode op).wellFormed = true ∧
    decodeOpcode (encode (decodeOpcode op)) = decodeOpcode op

/-- The two-level decoder of R49 is the table of R47 (numbers D4, log 8): an opcode selects a row exactly when it
decodes to the row's instruction, and it decodes to NOP exactly when it selects no row. -/
def Obligations.DecoderAgreesWithTheOpcodeTable : Prop :=
  ∀ op : Word,
    (∀ row ∈ opcodeTable, row.selects op = true ↔ (decodeOpcode op).mnemonic = row.mnemonic) ∧
    (decodeOpcode op = .nop op ↔ ∀ row ∈ opcodeTable, row.selects op = false)

/-- The bits that R50 says the decoder ignores take part in no decision and no operand: 11..4 of the mapped opcodes of
family 0x0, 3..0 of families 0x5 and 0x9, 7..4 of the mapped opcodes of family 0xE. -/
def Obligations.IgnoredBitsDoNotMatter : Prop :=
  ∀ op op' : Word, fieldT op = fieldT op' →
    ((fieldT op = 0x0#4 ∨ (fieldT op = 0xE#4 ∧ fieldX op = fieldX op')) → subNibble op = subNibble op' →
      unmapped op = false → decodeOpcode op = decodeOpcode op') ∧
    ((fieldT op = 0x5#4 ∨ fieldT op = 0x9#4) → fieldX op = fieldX op' → fieldY op = fieldY op' →
      decodeOpcode op = decodeOpcode op')

/-! ### The Step (40_step_cycle.md, 60_exceptions.md) -/

/-- R60, the whole Step: what is refused at admission; an out-of-range fetch; and otherwise the instruction that the
two bytes at PC decode to, run by exec from the state with the keypad sampled, OPCODE set and PC advanced by 2, after
which the timers tick, or, if it raised a fault, nothing of the Step is kept but the latch. (How a faulting Step is
answered as a next state is log 2.) -/
def Obligations.StepRunsTheDecodedInstruction : Prop :=
  ∀ s : State,
    (∀ f, s.flt = some f → step s = .fault f) ∧
    (s.flt = none → s.loaded = false → step s = .refused .stepBeforeLoad) ∧
    (Admitted s → 4094 < s.pc.toNat →
      step s = .next { s with flt := some (.addressOutOfRange (if 4096 ≤ s.pc.toNat then s.pc.toNat else 4096)) }) ∧
    ∀ i, Admitted s → s.pc.toNat ≤ 4094 →
      decode [s.readByte s.pc.toNat, s.readByte (s.pc.toNat + 1)] = .ok (i, []) →
      ∃ u, exec i { s with
              opcode := joinBytes (s.readByte s.pc.toNat) (s.readByte (s.pc.toNat + 1))
              pc := s.pc + 2
              key := s.keyInput
              keyInputs := s.keyInputs.tail
              keySamples := s.keySamples + 1 } = .next u ∧
        (u.flt = none → resultOf (step s) = .ok ∧ step s = .next { u with
          dt := if u.dt = 0 then 0 else u.dt - 1
          st := if u.st = 0 then 0 else u.st - 1 }) ∧
        (∀ f, u.flt = some f → resultOf (step s) = .fault f ∧ step s = .next { s with flt := some f })

/-- R128 (D8, log 11), R129, R131 (D9, log 12): a Step that faults changes nothing but the latch, reports the fault, and
every Step after it changes nothing and reports it again. -/
def Obligations.FaultingStepChangesOnlyTheLatch : Prop :=
  ∀ s t f, StepFaults s t f →
    Admitted s ∧ t = { s with flt := some f } ∧ hostStep s = (t, .fault f) ∧ step t = .fault f ∧
    hostStep t = (t, .fault f)

/-- R126 and R132: which instruction raises which fault, under which condition, with which recorded value; no Step
raises RomLoadError. (DisplayOutOfRange is D7, log 7; KeyIndexOutOfRange is D11, log 14.) -/
def Obligations.FaultsHaveTheirCauses : Prop :=
  ∀ s t f, StepFaults s t f →
    match f with
    | .addressOutOfRange a =>
      (4094 < s.pc.toNat ∧ a = if 4096 ≤ s.pc.toNat then s.pc.toNat else 4096) ∨
      (s.pc.toNat ≤ 4094 ∧ a = (if 4096 ≤ s.i.toNat then s.i.toNat else 4096) ∧
        ((∃ x y n, nextInstr s = some (.drw x y n) ∧ n.val ≠ 0 ∧ 4096 < s.i.toNat + n.val) ∨
         (∃ x, nextInstr s = some (.bcd x) ∧ 4096 < s.i.toNat + 3) ∨
         (∃ x, nextInstr s = some (.dump x) ∧ 4096 < s.i.toNat + x.val + 1) ∨
         (∃ x, nextInstr s = some (.load x) ∧ 4096 < s.i.toNat + x.val + 1)))
    | .stackOverflow a => (∃ nnn, nextInstr s = some (.call nnn)) ∧ s.sp.val = 16 ∧ a = s.pc.toNat
    | .stackUnderflow a => nextInstr s = some .ret ∧ s.sp.val = 0 ∧ a = s.pc.toNat
    | .displayOutOfRange k =>
      ∃ x y n, nextInstr s = some (.drw x y n) ∧ SpriteInMemory s n ∧ SetBitAt s x y n k ∧ 2048 ≤ k
    | .keyIndexOutOfRange v =>
      ∃ x, (nextInstr s = some (.skp x) ∨ nextInstr s = some (.sknp x)) ∧ v = (s.reg x).toNat ∧ 15 < v
    | .romLoadError _ => False

/-- R64: in every Step that completes each timer, as the handler left it, goes one down with a floor at 0, so a value
that LDDT or LDST writes is decremented in the same Step; LDVDT reads the value before; a Step that faults leaves both
(the last clause is R128's own choice, D8, log 11). -/
def Obligations.TimersCountDownAfterTheHandler : Prop :=
  ∀ s t,
    (∀ i, StepCompletes s t → nextInstr s = some i →
      t.dt.toNat = (match i with | .lddt x => (s.reg x).toNat | _ => s.dt.toNat) - 1 ∧
      t.st.toNat = (match i with | .ldst x => (s.reg x).toNat | _ => s.st.toNat) - 1 ∧
      (∀ x, i = .ldvdt x → t.reg x = s.dt)) ∧
    (∀ f, StepFaults s t f → t.dt = s.dt ∧ t.st = s.st)

/-- R13 (with D17, log 20): PC after every Step that completes, instruction by instruction. -/
def Obligations.ProgramCounterAfterEveryStep : Prop :=
  ∀ s t i, StepCompletes s t → nextInstr s = some i → t.pc = pcAfter i s

/-- R63: a handler changes only the state its rule names, for every instruction and every state. -/
def Obligations.FootprintOfEveryHandler : Prop :=
  ∀ i s t, exec i s = .next t → UnchangedExcept (mayChange i) s t

/-- R24, R38, R63: a Step that completes changes only what its instruction may change, PC, OPCODE, the timers and the
keypad sample; so memory changes only through BCD and DUMP, the display only through CLS and DRW, the stack entries
only through CALL. -/
def Obligations.FootprintOfEveryStep : Prop :=
  ∀ s t i, StepCompletes s t → nextInstr s = some i →
    UnchangedExcept (.pc :: .opcode :: .delay :: .sound :: .keypad :: mayChange i) s t ∧
    ((∃ a, t.readByte a ≠ s.readByte a) → ∃ x, i = .bcd x ∨ i = .dump x) ∧
    ((∃ k, t.fb.cell k ≠ s.fb.cell k) → i = .cls ∨ ∃ x y n, i = .drw x y n) ∧
    (t.stack ≠ s.stack → ∃ nnn, i = .call nnn)

/-- R67, R68, R127: an admitted Step always ends, whatever memory holds, and returns either ok, in a state with no fault
latched, or a fault. -/
def Obligations.EveryAdmittedStepEnds : Prop :=
  ∀ s, Admitted s → ∃ t, (StepCompletes s t ∧ hostStep s = (t, .ok)) ∨
    ∃ f, StepFaults s t f ∧ hostStep s = (t, .fault f)

/-! ### Invariants -/

/-- The state right after Reset meets the invariant. -/
def Obligations.ResetMeetsTheInvariant : Prop := MachineInv State.reset

/-- Every Step keeps the invariant, from every state that meets it: memory stays canonical, PC stays at most 0x10FE
(R13), valid stack entries stay return addresses (R70, R72), the latch agrees with the lifecycle (R157: D9, D18, log 12, 3). -/
def Obligations.EveryStepKeepsTheInvariant : Prop :=
  ∀ s t, MachineInv s → step s = .next t → MachineInv t

/-- Every operation of the host, Reset, LoadProgram of any bytes, write keypad, supply a random byte and Step, keeps the
invariant, from every state that meets it (R145, R157; the invariant's clauses as in EveryStepKeepsTheInvariant). -/
def Obligations.EveryHostOperationKeepsTheInvariant : Prop :=
  ∀ s op, MachineInv s → MachineInv (applyOp s op)

/-- Whatever operations the host invokes after a Reset, in whatever order, the machine meets the invariant. -/
def Obligations.EveryHostRunMeetsTheInvariant : Prop :=
  ∀ ops : List HostOp, MachineInv (ops.foldl applyOp State.reset)

/-! ### What is not observable -/

/-- R15, R141: nothing reads ST: a Step from a state that differs only in ST differs only in ST. -/
def Obligations.SoundTimerIsNeverRead : Prop :=
  ∀ s t b, step s = .next t → ∃ t', step { s with st := b } = .next t' ∧ t' = { t with st := t'.st }

/-- R21: KEY is read by SKP, SKNP and WKEY only. -/
def Obligations.KeypadIsReadByThreeInstructions : Prop :=
  ∀ i s t k, (∀ x, i ≠ .skp x ∧ i ≠ .sknp x ∧ i ≠ .wkey x) → exec i s = .next t →
    exec i { s with key := k } = .next { t with key := k }

/-- R14: the entries at index SP and above are never read. -/
def Obligations.StaleStackEntriesAreNeverRead : Prop :=
  ∀ s t (stack' : Vector Word 16), (∀ j : Fin 16, j.val < s.sp.val → stack'[j.val] = s.stack[j.val]) →
    step s = .next t →
    ∃ t', step { s with stack := stack' } = .next t' ∧ t' = { t with stack := t'.stack } ∧
      ∀ j : Fin 16, j.val < t.sp.val → t'.stack[j.val] = t.stack[j.val]

/-- R18: OPCODE is derived anew by every fetch, and the value it had before has no influence. -/
def Obligations.OpcodeIsNeverReadBetweenSteps : Prop :=
  ∀ s t w, StepCompletes s t → fetchOpcode s = .ok t.opcode ∧ step { s with opcode := w } = .next t

/-! ### Control transfer (41_flow.md) -/

/-- R71, R77: JP and JPV0, each with its encoding, result and frame; no target is checked or reduced. -/
def Obligations.JumpsSetThePc : Prop :=
  (∀ op : Word, (op &&& 0xF000#16 = 0x1000#16 → decodeOpcode op = .jp (fieldNNN op)) ∧
    (op &&& 0xF000#16 = 0xB000#16 → decodeOpcode op = .jpv0 (fieldNNN op))) ∧
  (∀ nnn s, ∃ t, exec (.jp nnn) s = .next t ∧ t.pc.toNat = nnn.toNat ∧ UnchangedExcept [.pc] s t) ∧
  (∀ nnn s, ∃ t, exec (.jpv0 nnn) s = .next t ∧ t.pc.toNat = nnn.toNat + (s.reg 0).toNat ∧ UnchangedExcept [.pc] s t)

/-- R72: CALL pushes the advanced PC, at most sixteen deep; at sixteen it raises StackOverflow with the address of its
own opcode and changes nothing else. (That the fault changes nothing else is D8, log 11; the recorded value is D20, log
33, and that address, the advanced PC less 2, is log 31, DEDUCED.) -/
def Obligations.CallPushesTheAdvancedPc : Prop :=
  (∀ op : Word, op &&& 0xF000#16 = 0x2000#16 → decodeOpcode op = .call (fieldNNN op)) ∧
  (∀ nnn s, s.sp.val ≠ 16 → ∃ t, exec (.call nnn) s = .next t ∧
    t.stack[s.sp.val]? = some s.pc ∧ (∀ j : Nat, j ≠ s.sp.val → t.stack[j]? = s.stack[j]?) ∧
    t.sp.val = s.sp.val + 1 ∧ t.pc.toNat = nnn.toNat ∧ UnchangedExcept [.stack, .sp, .pc] s t) ∧
  (∀ nnn s, s.sp.val = 16 →
    exec (.call nnn) s = .next { s with flt := some (.stackOverflow (s.pc - 2).toNat) })

/-- R70: RET pops; on an empty stack it raises StackUnderflow with the address of its own opcode and changes nothing
else. (That the fault changes nothing else is D8, log 11; the recorded value is D20, log 33, and that address, the
advanced PC less 2, is log 31, DEDUCED; that the popped entry keeps its value is log 32, DEDUCED.) -/
def Obligations.ReturnPopsTheStack : Prop :=
  (∀ op : Word, op &&& 0xF00F#16 = 0x000E#16 → decodeOpcode op = .ret) ∧
  (∀ s, s.sp.val ≠ 0 → ∃ t, exec .ret s = .next t ∧ t.sp.val + 1 = s.sp.val ∧ s.stack[t.sp.val]? = some t.pc ∧
    UnchangedExcept [.sp, .pc] s t) ∧
  (∀ s, s.sp.val = 0 → exec .ret s = .next { s with flt := some (.stackUnderflow (s.pc - 2).toNat) })

/-- R73, R74, R75, R76: the four register skips add exactly 2 to the advanced PC when their condition holds. -/
def Obligations.SkipsAddTwoOnTheirCondition : Prop :=
  (∀ op : Word, (op &&& 0xF000#16 = 0x3000#16 → decodeOpcode op = .se (fieldX op) (fieldNN op)) ∧
    (op &&& 0xF000#16 = 0x4000#16 → decodeOpcode op = .sne (fieldX op) (fieldNN op)) ∧
    (op &&& 0xF000#16 = 0x5000#16 → decodeOpcode op = .ser (fieldX op) (fieldY op)) ∧
    (op &&& 0xF000#16 = 0x9000#16 → decodeOpcode op = .sner (fieldX op) (fieldY op))) ∧
  (∀ x nn s, ∃ t, exec (.se x nn) s = .next t ∧ UnchangedExcept [.pc] s t ∧
    ((s.reg x).toNat = nn.toNat → t.pc = s.pc + 2) ∧ ((s.reg x).toNat ≠ nn.toNat → t.pc = s.pc)) ∧
  (∀ x nn s, ∃ t, exec (.sne x nn) s = .next t ∧ UnchangedExcept [.pc] s t ∧
    ((s.reg x).toNat ≠ nn.toNat → t.pc = s.pc + 2) ∧ ((s.reg x).toNat = nn.toNat → t.pc = s.pc)) ∧
  (∀ x y s, ∃ t, exec (.ser x y) s = .next t ∧ UnchangedExcept [.pc] s t ∧
    ((s.reg x).toNat = (s.reg y).toNat → t.pc = s.pc + 2) ∧ ((s.reg x).toNat ≠ (s.reg y).toNat → t.pc = s.pc)) ∧
  (∀ x y s, ∃ t, exec (.sner x y) s = .next t ∧ UnchangedExcept [.pc] s t ∧
    ((s.reg x).toNat ≠ (s.reg y).toNat → t.pc = s.pc + 2) ∧ ((s.reg x).toNat = (s.reg y).toNat → t.pc = s.pc))

/-- R78: CALL saves A + 2 and RET resumes there, whatever the subroutine did to the rest of the state. -/
def Obligations.ReturnResumesAfterTheCall : Prop :=
  ∀ nnn s u w, s.sp.val ≠ 16 → exec (.call nnn) s = .next u → w.stack = u.stack → w.sp = u.sp →
    ∃ t, exec .ret w = .next t ∧ t.pc = s.pc ∧ t.sp = s.sp ∧ UnchangedExcept [.sp, .pc] w t

/-- R65 (with D12, log 15): NOP. Its handler changes nothing; the Step of an unmapped opcode still advances PC by 2
and counts the timers down. -/
def Obligations.UnmappedOpcodesDoNothing : Prop :=
  (∀ op s, exec (.nop op) s = .next s) ∧
  ∀ s op, Admitted s → fetchOpcode s = .ok op → unmapped op = true →
    ∃ t, StepCompletes s t ∧ t.pc = s.pc + 2 ∧ t.dt.toNat = s.dt.toNat - 1 ∧ t.st.toNat = s.st.toNat - 1 ∧
      UnchangedExcept [.pc, .opcode, .delay, .sound, .keypad] s t

/-! ### Register load, arithmetic, logic, shifts, random (42_alu.md) -/

/-- R79, R81: LDI and MOV. -/
def Obligations.LoadImmediateAndCopy : Prop :=
  (∀ op : Word, (op &&& 0xF000#16 = 0x6000#16 → decodeOpcode op = .ldi (fieldX op) (fieldNN op)) ∧
    (op &&& 0xF00F#16 = 0x8000#16 → decodeOpcode op = .mov (fieldX op) (fieldY op))) ∧
  (∀ x nn s, ∃ t, exec (.ldi x nn) s = .next t ∧ t.reg x = nn ∧ (∀ r, r ≠ x → t.reg r = s.reg r) ∧
    UnchangedExcept [.regs] s t) ∧
  (∀ x y s, ∃ t, exec (.mov x y) s = .next t ∧ t.reg x = s.reg y ∧ (∀ r, r ≠ x → t.reg r = s.reg r) ∧
    UnchangedExcept [.regs] s t)

/-- R80: ADDI wraps and sets no flag. -/
def Obligations.AddImmediateWrapsWithoutFlag : Prop :=
  (∀ op : Word, op &&& 0xF000#16 = 0x7000#16 → decodeOpcode op = .addi (fieldX op) (fieldNN op)) ∧
  ∀ x nn s, ∃ t, exec (.addi x nn) s = .next t ∧ (t.reg x).toNat = ((s.reg x).toNat + nn.toNat) % 256 ∧
    (∀ r, r ≠ x → t.reg r = s.reg r) ∧ UnchangedExcept [.regs] s t

/-- R82, R83, R84: OR, AND, XOR, bit by bit; VF is not written. -/
def Obligations.LogicIsBitwiseWithoutFlag : Prop :=
  (∀ op : Word, (op &&& 0xF00F#16 = 0x8001#16 → decodeOpcode op = .or (fieldX op) (fieldY op)) ∧
    (op &&& 0xF00F#16 = 0x8002#16 → decodeOpcode op = .and (fieldX op) (fieldY op)) ∧
    (op &&& 0xF00F#16 = 0x8003#16 → decodeOpcode op = .xor (fieldX op) (fieldY op))) ∧
  (∀ x y s, ∃ t, exec (.or x y) s = .next t ∧
    (∀ b, (t.reg x).getLsbD b = ((s.reg x).getLsbD b || (s.reg y).getLsbD b)) ∧
    (∀ r, r ≠ x → t.reg r = s.reg r) ∧ UnchangedExcept [.regs] s t) ∧
  (∀ x y s, ∃ t, exec (.and x y) s = .next t ∧
    (∀ b, (t.reg x).getLsbD b = ((s.reg x).getLsbD b && (s.reg y).getLsbD b)) ∧
    (∀ r, r ≠ x → t.reg r = s.reg r) ∧ UnchangedExcept [.regs] s t) ∧
  (∀ x y s, ∃ t, exec (.xor x y) s = .next t ∧
    (∀ b, (t.reg x).getLsbD b = ((s.reg x).getLsbD b ^^ (s.reg y).getLsbD b)) ∧
    (∀ r, r ≠ x → t.reg r = s.reg r) ∧ UnchangedExcept [.regs] s t)

/-- R85: ADD. When X = 15 the sum stands and the carry is lost (R66: D13, log 16). -/
def Obligations.AddSetsTheCarry : Prop :=
  (∀ op : Word, op &&& 0xF00F#16 = 0x8004#16 → decodeOpcode op = .add (fieldX op) (fieldY op)) ∧
  ∀ x y s, ∃ t, exec (.add x y) s = .next t ∧
    (t.reg x).toNat = ((s.reg x).toNat + (s.reg y).toNat) % 256 ∧
    (x ≠ 15 → t.reg 15 = if 255 < (s.reg x).toNat + (s.reg y).toNat then 1 else 0) ∧
    (∀ r, r ≠ x → r ≠ 15 → t.reg r = s.reg r) ∧ UnchangedExcept [.regs] s t

/-- R86: SUB. The flag is the strict VX > VY (D26, log 25); when X = 15 the difference stands (R66: D13, log 16). -/
def Obligations.SubSetsTheStrictFlag : Prop :=
  (∀ op : Word, op &&& 0xF00F#16 = 0x8005#16 → decodeOpcode op = .sub (fieldX op) (fieldY op)) ∧
  ∀ x y s, ∃ t, exec (.sub x y) s = .next t ∧
    (t.reg x).toNat = ((s.reg x).toNat + 256 - (s.reg y).toNat) % 256 ∧
    (x ≠ 15 → t.reg 15 = if (s.reg y).toNat < (s.reg x).toNat then 1 else 0) ∧
    (∀ r, r ≠ x → r ≠ 15 → t.reg r = s.reg r) ∧ UnchangedExcept [.regs] s t

/-- R87: SHR shifts VY, sets VF for an even VY (D26, log 25), and when X = 15 the flag stands (R66: D13, log 16). -/
def Obligations.ShiftRightReadsVyAndFlagsEven : Prop :=
  (∀ op : Word, op &&& 0xF00F#16 = 0x8006#16 → decodeOpcode op = .shr (fieldX op) (fieldY op)) ∧
  ∀ x y s, ∃ t, exec (.shr x y) s = .next t ∧
    (x ≠ 15 → (t.reg x).toNat = (s.reg y).toNat / 2) ∧
    t.reg 15 = (if (s.reg y).toNat % 2 = 0 then 1 else 0) ∧
    (∀ r, r ≠ x → r ≠ 15 → t.reg r = s.reg r) ∧ UnchangedExcept [.regs] s t

/-- R88: SUBN. The difference is reversed, the flag is not (D26, log 25: no test in the source); when X = 15 the
difference stands (R66: D13, log 16). -/
def Obligations.SubnReversesOnlyTheDifference : Prop :=
  (∀ op : Word, op &&& 0xF00F#16 = 0x8007#16 → decodeOpcode op = .subn (fieldX op) (fieldY op)) ∧
  ∀ x y s, ∃ t, exec (.subn x y) s = .next t ∧
    (t.reg x).toNat = ((s.reg y).toNat + 256 - (s.reg x).toNat) % 256 ∧
    (x ≠ 15 → t.reg 15 = if (s.reg y).toNat < (s.reg x).toNat then 1 else 0) ∧
    (∀ r, r ≠ x → r ≠ 15 → t.reg r = s.reg r) ∧ UnchangedExcept [.regs] s t

/-- R89: SHL shifts VY, sets VF to its bit 7 (D26, log 25), and when X = 15 the shifted value stands (R66: D13, log
16). -/
def Obligations.ShiftLeftReadsVyAndFlagsBitSeven : Prop :=
  (∀ op : Word, op &&& 0xF00F#16 = 0x800E#16 → decodeOpcode op = .shl (fieldX op) (fieldY op)) ∧
  ∀ x y s, ∃ t, exec (.shl x y) s = .next t ∧
    (t.reg x).toNat = 2 * (s.reg y).toNat % 256 ∧
    (x ≠ 15 → t.reg 15 = if 128 ≤ (s.reg y).toNat then 1 else 0) ∧
    (∀ r, r ≠ x → r ≠ 15 → t.reg r = s.reg r) ∧ UnchangedExcept [.regs] s t

/-- R90, R22 (D16, log 19): RND masks the draw's byte, the one the injected source delivers next if there is one, and
consumes exactly that draw; with no byte supplied nothing is claimed of the byte but the mask. -/
def Obligations.RandomIsTheMaskedDraw : Prop :=
  (∀ op : Word, op &&& 0xF000#16 = 0xC000#16 → decodeOpcode op = .rnd (fieldX op) (fieldNN op)) ∧
  ∀ x nn s, ∃ t, exec (.rnd x nn) s = .next t ∧
    (∀ b bs, s.rndInputs = b :: bs → t.reg x = b &&& nn) ∧
    (∀ k, nn.getLsbD k = false → (t.reg x).getLsbD k = false) ∧
    t.rndInputs = s.rndInputs.tail ∧ t.draws = s.draws + 1 ∧
    (∀ r, r ≠ x → t.reg r = s.reg r) ∧ UnchangedExcept [.regs, .random] s t

/-- R93: the two-register instructions with X = Y (both operands are read first), for X other than 15. -/
def Obligations.SameRegisterOperands : Prop :=
  ∀ (x : Reg) s, x ≠ 15 →
    (∀ i, i = .mov x x ∨ i = .or x x ∨ i = .and x x → ∃ t, exec i s = .next t ∧ ∀ r, t.reg r = s.reg r) ∧
    (∃ t, exec (.xor x x) s = .next t ∧ t.reg x = 0 ∧ t.reg 15 = s.reg 15) ∧
    (∀ i, i = .add x x ∨ i = .shl x x → ∃ t, exec i s = .next t ∧
      (t.reg x).toNat = 2 * (s.reg x).toNat % 256 ∧ t.reg 15 = if 128 ≤ (s.reg x).toNat then 1 else 0) ∧
    (∀ i, i = .sub x x ∨ i = .subn x x → ∃ t, exec i s = .next t ∧ t.reg x = 0 ∧ t.reg 15 = 0) ∧
    (∃ t, exec (.shr x x) s = .next t ∧ (t.reg x).toNat = (s.reg x).toNat / 2 ∧
      t.reg 15 = if (s.reg x).toNat % 2 = 0 then 1 else 0) ∧
    (∃ t, exec (.ser x x) s = .next t ∧ t.pc = s.pc + 2) ∧
    (∃ t, exec (.sner x x) s = .next t ∧ t.pc = s.pc)

/-! ### Index register and memory (43_index_memory.md, 20_memory.md) -/

/-- R95, R97: LDIX and FONT; FONT uses the whole 8-bit VX. -/
def Obligations.IndexLoads : Prop :=
  (∀ op : Word, (op &&& 0xF000#16 = 0xA000#16 → decodeOpcode op = .ldix (fieldNNN op)) ∧
    (op &&& 0xF0FF#16 = 0xF029#16 → decodeOpcode op = .font (fieldX op))) ∧
  (∀ nnn s, ∃ t, exec (.ldix nnn) s = .next t ∧ t.i.toNat = nnn.toNat ∧ UnchangedExcept [.index] s t) ∧
  (∀ x s, ∃ t, exec (.font x) s = .next t ∧ t.i.toNat = Config.fontBase + 5 * (s.reg x).toNat ∧
    UnchangedExcept [.index] s t)

/-- R96 (the wrap at 65536 is D10, log 13): ADDIX adds without flag, mask or fault, whatever I holds. -/
def Obligations.AddToIndexNeverFaults : Prop :=
  (∀ op : Word, op &&& 0xF0FF#16 = 0xF01E#16 → decodeOpcode op = .addix (fieldX op)) ∧
  ∀ x s, ∃ t, exec (.addix x) s = .next t ∧ t.i.toNat = (s.i.toNat + (s.reg x).toNat) % 65536 ∧
    UnchangedExcept [.index] s t

/-- R98: BCD stores the three digits at I, I+1, I+2 and no other byte, or raises AddressOutOfRange and stores none
(the fault at the access is D8, D10, log 11, 13; the recorded value D20, log 33). The premise that memory is canonical
is part of the invariant. -/
def Obligations.BcdStoresThreeDigits : Prop :=
  (∀ op : Word, op &&& 0xF0FF#16 = 0xF033#16 → decodeOpcode op = .bcd (fieldX op)) ∧
  (∀ x s, s.mem.wf → s.i.toNat + 2 ≤ 4095 → ∃ t, exec (.bcd x) s = .next t ∧
    (t.readByte s.i.toNat).toNat = (s.reg x).toNat / 100 ∧
    (t.readByte (s.i.toNat + 1)).toNat = (s.reg x).toNat / 10 % 10 ∧
    (t.readByte (s.i.toNat + 2)).toNat = (s.reg x).toNat % 10 ∧
    (∀ a, a < s.i.toNat ∨ s.i.toNat + 2 < a → t.readByte a = s.readByte a) ∧ UnchangedExcept [.memory] s t) ∧
  (∀ x s, 4095 < s.i.toNat + 2 → exec (.bcd x) s =
    .next { s with flt := some (.addressOutOfRange (if 4096 ≤ s.i.toNat then s.i.toNat else 4096)) })

/-- R99: DUMP stores V0..VX at I..I+X and no other byte and moves I past them, or raises AddressOutOfRange and changes
nothing else. (The fault at the access, and I = 4096 without one, are D8, D10, log 11, 13; the recorded value D20, log
33.) The premise that memory is canonical is part of the invariant. -/
def Obligations.DumpStoresTheFirstRegisters : Prop :=
  (∀ op : Word, op &&& 0xF0FF#16 = 0xF055#16 → decodeOpcode op = .dump (fieldX op)) ∧
  (∀ x s, s.mem.wf → s.i.toNat + x.val ≤ 4095 → ∃ t, exec (.dump x) s = .next t ∧
    (∀ r : Reg, r ≤ x → t.readByte (s.i.toNat + r.val) = s.reg r) ∧
    (∀ a, a < s.i.toNat ∨ s.i.toNat + x.val < a → t.readByte a = s.readByte a) ∧
    t.i.toNat = s.i.toNat + x.val + 1 ∧ UnchangedExcept [.memory, .index] s t) ∧
  (∀ x s, 4095 < s.i.toNat + x.val → exec (.dump x) s =
    .next { s with flt := some (.addressOutOfRange (if 4096 ≤ s.i.toNat then s.i.toNat else 4096)) })

/-- R100: LOAD loads V0..VX from I..I+X, leaves the registers above, and moves I past the bytes, or raises
AddressOutOfRange and changes nothing else. (The fault at the access, and I = 4096 without one, are D8, D10, log 11,
13; the recorded value D20, log 33.) -/
def Obligations.LoadFillsTheFirstRegisters : Prop :=
  (∀ op : Word, op &&& 0xF0FF#16 = 0xF065#16 → decodeOpcode op = .load (fieldX op)) ∧
  (∀ x s, s.i.toNat + x.val ≤ 4095 → ∃ t, exec (.load x) s = .next t ∧
    (∀ r : Reg, r ≤ x → t.reg r = s.readByte (s.i.toNat + r.val)) ∧
    (∀ r : Reg, x < r → t.reg r = s.reg r) ∧
    t.i.toNat = s.i.toNat + x.val + 1 ∧ UnchangedExcept [.regs, .index] s t) ∧
  (∀ x s, 4095 < s.i.toNat + x.val → exec (.load x) s =
    .next { s with flt := some (.addressOutOfRange (if 4096 ≤ s.i.toNat then s.i.toNat else 4096)) })

/-- The document's register-dump/load round trip (95_test_vectors.md section 1.7), for every X: a LOAD from where a
DUMP stored gives the dumped registers back and leaves I where the DUMP left it. -/
def Obligations.DumpThenLoadGivesTheRegistersBack : Prop :=
  ∀ x s u w, s.mem.wf → s.i.toNat + x.val ≤ 4095 → exec (.dump x) s = .next u →
    (∀ a, w.readByte a = u.readByte a) → w.i = s.i →
    ∃ t, exec (.load x) w = .next t ∧ (∀ r : Reg, r ≤ x → t.reg r = s.reg r) ∧
      (∀ r : Reg, x < r → t.reg r = w.reg r) ∧ t.i = u.i

/-- R42: a store is seen by the next fetch: after a DUMP, the opcode fetched inside the stored bytes is made of the
dumped registers, high byte first. -/
def Obligations.StoresReachTheNextFetch : Prop :=
  ∀ x s t (r q : Reg) (a : Word), s.mem.wf → s.i.toNat + x.val ≤ 4095 → exec (.dump x) s = .next t →
    q.val = r.val + 1 → q ≤ x → a.toNat = s.i.toNat + r.val →
    fetchOpcode { t with pc := a } = .ok (joinBytes (s.reg r) (s.reg q))

/-- R167, R50: zero-filled memory is executable: at two zero bytes a Step clears the display and goes on. -/
def Obligations.ZeroMemoryExecutesAsClear : Prop :=
  ∀ s, Admitted s → s.pc.toNat ≤ 4094 → s.readByte s.pc.toNat = 0 → s.readByte (s.pc.toNat + 1) = 0 →
    nextInstr s = some .cls ∧ ∃ t, StepCompletes s t ∧ (∀ k, t.fb.cell k = false) ∧ t.pc = s.pc + 2 ∧
      UnchangedExcept [.pc, .display, .opcode, .delay, .sound, .keypad] s t

/-! ### Display (44_display.md) -/

/-- R105: CLS. -/
def Obligations.ClearUnlightsEveryCell : Prop :=
  (∀ op : Word, op &&& 0xF00F#16 = 0x0000#16 → decodeOpcode op = .cls) ∧
  ∀ s, ∃ t, exec .cls s = .next t ∧ (∀ k, t.fb.cell k = false) ∧ UnchangedExcept [.display] s t

/-- R107 (D5, D6, D7, D23; log 7, 9, 10, 22), with DRAW_EDGE = linear: when the sprite is in memory and no set bit is
beyond the last cell, DRW toggles exactly the cells of its set bits and sets VF to whether one of them was lit. -/
def Obligations.DrawTogglesExactlyTheSetBits : Prop :=
  ∀ x y n s, SpriteInMemory s n → (∀ k, SetBitAt s x y n k → k < 2048) →
    ∃ t, exec (.drw x y n) s = .next t ∧
      (∀ k, SetBitAt s x y n k → t.fb.cell k = !s.fb.cell k) ∧
      (∀ k, ¬ SetBitAt s x y n k → t.fb.cell k = s.fb.cell k) ∧
      ((∃ k, SetBitAt s x y n k ∧ s.fb.cell k = true) → t.reg 15 = 1) ∧
      ((∀ k, SetBitAt s x y n k → s.fb.cell k = false) → t.reg 15 = 0) ∧
      (∀ r, r ≠ 15 → t.reg r = s.reg r) ∧ UnchangedExcept [.regs, .display] s t

/-- R107, R136 (D7, D25; log 7, 24): DRW's two faults change nothing but the latch; the memory fault goes before the
display fault, and of several cells beyond the display the first in loop order, which is the lowest, is reported. -/
def Obligations.DrawFaultsInOrder : Prop :=
  (∀ x y n s, ¬ SpriteInMemory s n → exec (.drw x y n) s =
    .next { s with flt := some (.addressOutOfRange (if 4096 ≤ s.i.toNat then s.i.toNat else 4096)) }) ∧
  (∀ x y n s k, SpriteInMemory s n → SetBitAt s x y n k → 2048 ≤ k →
    (∀ k', SetBitAt s x y n k' → 2048 ≤ k' → k ≤ k') →
    exec (.drw x y n) s = .next { s with flt := some (.displayOutOfRange k) })

/-- R109 (2), with DRAW_EDGE = linear (D7, log 7): two draws of the same sprite at the same place give the display back; the second sets VF exactly when
a toggled cell was unlit before the first. -/
def Obligations.DrawTwiceGivesTheDisplayBack : Prop :=
  ∀ x y n s u w, SpriteInMemory s n → (∀ k, SetBitAt s x y n k → k < 2048) → exec (.drw x y n) s = .next u →
    w.fb = u.fb → w.i = s.i → (∀ a, w.readByte a = s.readByte a) → w.reg x = s.reg x → w.reg y = s.reg y →
    ∃ t, exec (.drw x y n) w = .next t ∧ t.fb = s.fb ∧
      ((∃ k, SetBitAt s x y n k ∧ s.fb.cell k = false) → t.reg 15 = 1) ∧
      ((∀ k, SetBitAt s x y n k → s.fb.cell k = true) → t.reg 15 = 0)

/-- R108: the four values of DRAW_EDGE give the same draw when every set bit falls on the grid; off the grid `wrap`
and `clip` never raise a display fault, and `fault` does exactly when a set bit is off the grid. -/
def Obligations.EdgeModesDifferOnlyOffTheGrid : Prop :=
  ∀ x y n s, s.flt = none → SpriteInMemory s n →
    ((∀ r c, r < n.val → c < 8 → spriteBit s r c = true → drawColumn s x c < 64 ∧ drawRow s y r < 32) →
      ∀ e, drawSprite e x y n s = drawSprite .linear x y n s ∧ (drawSprite e x y n s).flt = none) ∧
    (drawSprite .wrap x y n s).flt = none ∧ (drawSprite .clip x y n s).flt = none ∧
    ((∃ r c, r < n.val ∧ c < 8 ∧ spriteBit s r c = true ∧ (64 ≤ drawColumn s x c ∨ 32 ≤ drawRow s y r)) →
      ∃ k, (drawSprite .fault x y n s).flt = some (.displayOutOfRange k))

/-! ### Keypad and timers (45_keypad_timers.md) -/

/-- R115, R116, R121 (the fault is D11, log 14): SKP and SKNP skip on the state of the key VX names, the whole 8 bits;
above 15 they raise KeyIndexOutOfRange. -/
def Obligations.KeySkipsFollowTheNamedKey : Prop :=
  (∀ op : Word, (op &&& 0xF00F#16 = 0xE00E#16 → decodeOpcode op = .skp (fieldX op)) ∧
    (op &&& 0xF00F#16 = 0xE001#16 → decodeOpcode op = .sknp (fieldX op))) ∧
  (∀ x s, (s.reg x).toNat ≤ 15 →
    (∃ t, exec (.skp x) s = .next t ∧ UnchangedExcept [.pc] s t ∧
      t.pc = if s.key.getLsbD (s.reg x).toNat = true then s.pc + 2 else s.pc) ∧
    (∃ t, exec (.sknp x) s = .next t ∧ UnchangedExcept [.pc] s t ∧
      t.pc = if s.key.getLsbD (s.reg x).toNat = false then s.pc + 2 else s.pc)) ∧
  (∀ x s, 15 < (s.reg x).toNat →
    exec (.skp x) s = .next { s with flt := some (.keyIndexOutOfRange (s.reg x).toNat) } ∧
    exec (.sknp x) s = .next { s with flt := some (.keyIndexOutOfRange (s.reg x).toNat) })

/-- R118: WKEY takes the lowest pressed key, or goes back to itself when none is pressed; the Step that waits is a
complete Step, which leaves PC and every register where they were and counts the timers down. -/
def Obligations.WaitTakesTheLowestPressedKey : Prop :=
  (∀ op : Word, op &&& 0xF0FF#16 = 0xF00A#16 → decodeOpcode op = .wkey (fieldX op)) ∧
  (∀ x s k, k < 16 → s.key.getLsbD k = true → (∀ j < k, s.key.getLsbD j = false) →
    ∃ t, exec (.wkey x) s = .next t ∧ (t.reg x).toNat = k ∧ (∀ r, r ≠ x → t.reg r = s.reg r) ∧
      UnchangedExcept [.regs] s t) ∧
  (∀ x s, (∀ k < 16, s.key.getLsbD k = false) →
    ∃ t, exec (.wkey x) s = .next t ∧ t.pc = s.pc - 2 ∧ UnchangedExcept [.pc] s t) ∧
  (∀ x s, Admitted s → nextInstr s = some (.wkey x) → s.keyInput = 0 →
    ∃ t, StepCompletes s t ∧ t.dt.toNat = s.dt.toNat - 1 ∧ t.st.toNat = s.st.toNat - 1 ∧
      UnchangedExcept [.opcode, .delay, .sound, .keypad] s t)

/-- R117, R119, R120: LDVDT, LDDT, LDST; the handler's effect, and with the Step's timer phase after it. -/
def Obligations.TimerTransfers : Prop :=
  (∀ op : Word, (op &&& 0xF0FF#16 = 0xF007#16 → decodeOpcode op = .ldvdt (fieldX op)) ∧
    (op &&& 0xF0FF#16 = 0xF015#16 → decodeOpcode op = .lddt (fieldX op)) ∧
    (op &&& 0xF0FF#16 = 0xF018#16 → decodeOpcode op = .ldst (fieldX op))) ∧
  (∀ x s, ∃ t, exec (.ldvdt x) s = .next t ∧ t.reg x = s.dt ∧ (∀ r, r ≠ x → t.reg r = s.reg r) ∧
    UnchangedExcept [.regs] s t) ∧
  (∀ x s, ∃ t, exec (.lddt x) s = .next t ∧ t.dt = s.reg x ∧ UnchangedExcept [.delay] s t) ∧
  (∀ x s, ∃ t, exec (.ldst x) s = .next t ∧ t.st = s.reg x ∧ UnchangedExcept [.sound] s t) ∧
  (∀ x s, Admitted s → nextInstr s = some (.ldvdt x) →
    ∃ t, StepCompletes s t ∧ t.reg x = s.dt ∧ t.dt.toNat = s.dt.toNat - 1) ∧
  (∀ x s, Admitted s → nextInstr s = some (.lddt x) →
    ∃ t, StepCompletes s t ∧ t.dt.toNat = (s.reg x).toNat - 1) ∧
  (∀ x s, Admitted s → nextInstr s = some (.ldst x) →
    ∃ t, StepCompletes s t ∧ t.st.toNat = (s.reg x).toNat - 1)

/-! ### Reset and load (70_reset_and_hazards.md) -/

/-- R150, R25, R152 (D1, D2, D3, D9, D14, D18; log 4, 5, 6, 12, 17, 3): what Reset leaves, from any state; it does not
touch the keypad and draws no random byte. (OPCODE is immaterial and not stated.) -/
def Obligations.ResetLeavesTheStatedValues : Prop :=
  ∀ s, (∀ r, (hostReset s).reg r = 0) ∧ (hostReset s).i = 0 ∧ (hostReset s).pc = 0x200 ∧
    (hostReset s).sp.val = 0 ∧ (∀ j : Fin 16, (hostReset s).stack[j.val] = 0) ∧
    (hostReset s).dt = 0 ∧ (hostReset s).st = 0 ∧
    (∀ a, (hostReset s).readByte a =
      if 0x050 ≤ a ∧ a < 0x050 + 80 then Config.fontData.getD (a - 0x050) 0 else 0) ∧
    (∀ k, (hostReset s).fb.cell k = false) ∧ (hostReset s).flt = none ∧ (hostReset s).loaded = false ∧
    Part.same s (hostReset s) .keypad ∧ Part.same s (hostReset s) .random

/-- R155: LoadProgram. A sequence that fits is stored from LOAD_ORIGIN, nothing else is changed but LOADED; one that does
not fit latches RomLoadError and writes nothing; a load that is not admitted is refused (R157: D9, D18, log 12, 3).
Lengths 0, odd and at the capacity are accepted (D24, log 23). The premise that memory is
canonical is part of the invariant. -/
def Obligations.LoadProgramStoresTheBytes : Prop :=
  (∀ bytes s, s.flt = none → s.loaded = false → s.mem.wf → bytes.length ≤ Config.memSize - Config.loadOrigin →
    ∃ t, loadProgram bytes s = .next t ∧ t.loaded = true ∧
      (∀ j, j < bytes.length → t.readByte (Config.loadOrigin + j) = bytes.getD j 0) ∧
      (∀ a, a < Config.loadOrigin ∨ Config.loadOrigin + bytes.length ≤ a → t.readByte a = s.readByte a) ∧
      UnchangedExcept [.memory, .loaded] s t) ∧
  (∀ bytes s, s.flt = none → s.loaded = false → Config.memSize - Config.loadOrigin < bytes.length →
    loadProgram bytes s = .next { s with flt := some (.romLoadError bytes.length) }) ∧
  (∀ bytes s f, s.flt = some f → loadProgram bytes s = .fault f) ∧
  (∀ bytes s, s.flt = none → s.loaded = true → loadProgram bytes s = .refused .secondLoad)

/-- R158, R36: after Reset and LoadProgram the first Step runs the instruction of the program's first two bytes, the
first byte the high one. -/
def Obligations.FirstStepRunsTheProgramsFirstWord : Prop :=
  ∀ s hi lo rest, (hi :: lo :: rest).length ≤ Config.memSize - Config.loadOrigin →
    ∃ t, loadProgram (hi :: lo :: rest) (hostReset s) = .next t ∧ Admitted t ∧ t.pc = 0x200 ∧
      fetchOpcode t = .ok (joinBytes hi lo)

/-- R145, R21: the keypad pattern that the host writes is the one the next Step's instruction sees. -/
def Obligations.NextStepSeesTheWrittenKeypad : Prop :=
  ∀ s t k, StepCompletes (writeKeypad k s) t → t.key = k ∧ t.keyInputs = s.keyInputs.tail
end

