-- ==== Sys2Proof/Laws/Config.lean ====
section
/-! SUPPORT. The constants as numerals, for simp and omega. -/

namespace Sys2Proof.Config

@[simp] theorem memSize_eq : memSize = 4096 := rfl
@[simp] theorem stackDepth_eq : stackDepth = 16 := rfl
@[simp] theorem fbWidth_eq : fbWidth = 64 := rfl
@[simp] theorem fbHeight_eq : fbHeight = 32 := rfl
@[simp] theorem loadOrigin_eq : loadOrigin = 512 := rfl
@[simp] theorem fontBase_eq : fontBase = 80 := rfl

theorem fontData_length : fontData.length = 80 := by decide

end Sys2Proof.Config
end

