-- ==== Sys2Proof/Laws/Decode.lean ====
section
/-! SUPPORT. The fields of an opcode as numbers, and the byte order. -/

namespace Sys2Proof

theorem fieldT_toNat (op : Word) : (fieldT op).toNat = op.toNat / 4096 := by
  have := op.isLt
  simp only [fieldT, BitVec.extractLsb'_toNat, Nat.shiftRight_eq_div_pow]; omega

theorem fieldX_val (op : Word) : (fieldX op).val = op.toNat / 256 % 16 := by
  show (op.extractLsb' 8 4).toNat = _
  simp only [BitVec.extractLsb'_toNat, Nat.shiftRight_eq_div_pow]

theorem fieldY_val (op : Word) : (fieldY op).val = op.toNat / 16 % 16 := by
  show (op.extractLsb' 4 4).toNat = _
  simp only [BitVec.extractLsb'_toNat, Nat.shiftRight_eq_div_pow]

theorem fieldN_val (op : Word) : (fieldN op).val = op.toNat % 16 := by
  show (op.extractLsb' 0 4).toNat = _
  simp only [BitVec.extractLsb'_toNat, Nat.shiftRight_zero]

theorem subNibble_toNat (op : Word) : (subNibble op).toNat = op.toNat % 16 := by
  simp only [subNibble, BitVec.extractLsb'_toNat, Nat.shiftRight_zero]

theorem fieldNN_toNat (op : Word) : (fieldNN op).toNat = op.toNat % 256 := by
  simp only [fieldNN, BitVec.extractLsb'_toNat, Nat.shiftRight_zero]

theorem fieldNNN_toNat (op : Word) : (fieldNNN op).toNat = op.toNat % 4096 := by
  simp only [fieldNNN, BitVec.extractLsb'_toNat, Nat.shiftRight_zero]

theorem highByte_toNat (w : Word) : (highByte w).toNat = w.toNat / 256 := by
  have := w.isLt
  simp only [highByte, BitVec.extractLsb'_toNat, Nat.shiftRight_eq_div_pow]; omega

theorem lowByte_toNat (w : Word) : (lowByte w).toNat = w.toNat % 256 := by
  simp only [lowByte, BitVec.extractLsb'_toNat, Nat.shiftRight_zero]

/-! ### The masks of the opcode table (30_encoding.md R47) as arithmetic -/

theorem and_F000_toNat (op : Word) : (op &&& 0xF000#16).toNat = op.toNat / 4096 * 4096 := by
  have h : op &&& 0xF000#16 = (op >>> 12) <<< 12 := by
    apply BitVec.eq_of_getLsbD_eq
    intro i hi
    have hm : (0xF000#16).getLsbD i = decide (12 ≤ i) := by revert i; decide
    rw [BitVec.getLsbD_and, BitVec.getLsbD_shiftLeft, BitVec.getLsbD_ushiftRight, hm]
    by_cases h : 12 ≤ i
    · simp [h, hi, show ¬ i < 12 by omega]
    · simp [h, show i < 12 by omega]
  have := op.isLt
  rw [h, BitVec.toNat_shiftLeft, BitVec.toNat_ushiftRight, Nat.shiftLeft_eq, Nat.shiftRight_eq_div_pow]
  omega

theorem and_000F_toNat (op : Word) : (op &&& 0x000F#16).toNat = op.toNat % 16 := by
  rw [BitVec.toNat_and]; exact Nat.and_two_pow_sub_one_eq_mod op.toNat 4

theorem and_00FF_toNat (op : Word) : (op &&& 0x00FF#16).toNat = op.toNat % 256 := by
  rw [BitVec.toNat_and]; exact Nat.and_two_pow_sub_one_eq_mod op.toNat 8

/-- A mask made of two disjoint masks. -/
theorem and_toNat_of_disjoint (op a b : Word) (h : a &&& b = 0#16) :
    (op &&& (a ||| b)).toNat = ((op &&& a).toNat + (op &&& b).toNat) % 65536 := by
  have hd : (op &&& a) &&& (op &&& b) = 0#16 := by
    rw [BitVec.and_assoc, ← BitVec.and_assoc a, BitVec.and_comm a op, BitVec.and_assoc op a, h]
    simp
  rw [BitVec.and_or_distrib_left, ← BitVec.add_eq_or_of_and_eq_zero _ _ hd, BitVec.toNat_add]

theorem and_F00F_toNat (op : Word) : (op &&& 0xF00F#16).toNat = op.toNat / 4096 * 4096 + op.toNat % 16 := by
  have := op.isLt
  rw [show 0xF00F#16 = 0xF000#16 ||| 0x000F#16 from rfl, and_toNat_of_disjoint _ _ _ rfl, and_F000_toNat,
    and_000F_toNat]
  omega

theorem and_F0FF_toNat (op : Word) : (op &&& 0xF0FF#16).toNat = op.toNat / 4096 * 4096 + op.toNat % 256 := by
  have := op.isLt
  rw [show 0xF0FF#16 = 0xF000#16 ||| 0x00FF#16 from rfl, and_toNat_of_disjoint _ _ _ rfl, and_F000_toNat,
    and_00FF_toNat]
  omega

/-- Splitting a word into bytes and joining them gives it back. -/
@[simp] theorem joinBytes_high_low (w : Word) : joinBytes (highByte w) (lowByte w) = w := by
  have := w.isLt
  apply BitVec.eq_of_toNat_eq
  simp only [joinBytes, BitVec.toNat_ofNat, highByte_toNat, lowByte_toNat]; omega

theorem highByte_joinBytes (hi lo : Byte) : highByte (joinBytes hi lo) = hi := by
  have := hi.isLt; have := lo.isLt
  apply BitVec.eq_of_toNat_eq
  simp only [highByte_toNat, joinBytes, BitVec.toNat_ofNat]; omega

theorem lowByte_joinBytes (hi lo : Byte) : lowByte (joinBytes hi lo) = lo := by
  have := hi.isLt; have := lo.isLt
  apply BitVec.eq_of_toNat_eq
  simp only [lowByte_toNat, joinBytes, BitVec.toNat_ofNat]; omega

@[simp] theorem decode_two (hi lo : Byte) (rest : List Byte) :
    decode (hi :: lo :: rest) = .ok (decodeOpcode (joinBytes hi lo), rest) := rfl

/-- The bytes of an instruction decode as its word does. -/
theorem decode_encodeBytes (i : Instr) (rest : List Byte) :
    decode (encodeBytes i ++ rest) = .ok (decodeOpcode (encode i), rest) := by
  simp [encodeBytes]

end Sys2Proof
end

