-- ==== Sys2Proof/Laws/State.lean ====
section
/-! SUPPORT. One lemma per field per update of the state, true by definition, so that no proof unfolds a record update;
and what the accessors read after an update. -/

namespace Sys2Proof.Machine

variable (s : State)

/-! ### setReg -/

@[simp] theorem State.setReg_v (r : Reg) (b : Byte) : (s.setReg r b).v = s.v.set r.val b := rfl
@[simp] theorem State.setReg_i (r : Reg) (b : Byte) : (s.setReg r b).i = s.i := rfl
@[simp] theorem State.setReg_pc (r : Reg) (b : Byte) : (s.setReg r b).pc = s.pc := rfl
@[simp] theorem State.setReg_stack (r : Reg) (b : Byte) : (s.setReg r b).stack = s.stack := rfl
@[simp] theorem State.setReg_sp (r : Reg) (b : Byte) : (s.setReg r b).sp = s.sp := rfl
@[simp] theorem State.setReg_dt (r : Reg) (b : Byte) : (s.setReg r b).dt = s.dt := rfl
@[simp] theorem State.setReg_st (r : Reg) (b : Byte) : (s.setReg r b).st = s.st := rfl
@[simp] theorem State.setReg_mem (r : Reg) (b : Byte) : (s.setReg r b).mem = s.mem := rfl
@[simp] theorem State.setReg_fb (r : Reg) (b : Byte) : (s.setReg r b).fb = s.fb := rfl
@[simp] theorem State.setReg_opcode (r : Reg) (b : Byte) : (s.setReg r b).opcode = s.opcode := rfl
@[simp] theorem State.setReg_flt (r : Reg) (b : Byte) : (s.setReg r b).flt = s.flt := rfl
@[simp] theorem State.setReg_loaded (r : Reg) (b : Byte) : (s.setReg r b).loaded = s.loaded := rfl
@[simp] theorem State.setReg_key (r : Reg) (b : Byte) : (s.setReg r b).key = s.key := rfl
@[simp] theorem State.setReg_keyInputs (r : Reg) (b : Byte) : (s.setReg r b).keyInputs = s.keyInputs := rfl
@[simp] theorem State.setReg_keySamples (r : Reg) (b : Byte) : (s.setReg r b).keySamples = s.keySamples := rfl
@[simp] theorem State.setReg_rndInputs (r : Reg) (b : Byte) : (s.setReg r b).rndInputs = s.rndInputs := rfl
@[simp] theorem State.setReg_draws (r : Reg) (b : Byte) : (s.setReg r b).draws = s.draws := rfl

/-! ### setRegs -/

@[simp] theorem State.setRegs_v (w : Vector Byte 16) : (s.setRegs w).v = w := rfl
@[simp] theorem State.setRegs_i (w : Vector Byte 16) : (s.setRegs w).i = s.i := rfl
@[simp] theorem State.setRegs_pc (w : Vector Byte 16) : (s.setRegs w).pc = s.pc := rfl
@[simp] theorem State.setRegs_stack (w : Vector Byte 16) : (s.setRegs w).stack = s.stack := rfl
@[simp] theorem State.setRegs_sp (w : Vector Byte 16) : (s.setRegs w).sp = s.sp := rfl
@[simp] theorem State.setRegs_dt (w : Vector Byte 16) : (s.setRegs w).dt = s.dt := rfl
@[simp] theorem State.setRegs_st (w : Vector Byte 16) : (s.setRegs w).st = s.st := rfl
@[simp] theorem State.setRegs_mem (w : Vector Byte 16) : (s.setRegs w).mem = s.mem := rfl
@[simp] theorem State.setRegs_fb (w : Vector Byte 16) : (s.setRegs w).fb = s.fb := rfl
@[simp] theorem State.setRegs_opcode (w : Vector Byte 16) : (s.setRegs w).opcode = s.opcode := rfl
@[simp] theorem State.setRegs_flt (w : Vector Byte 16) : (s.setRegs w).flt = s.flt := rfl
@[simp] theorem State.setRegs_loaded (w : Vector Byte 16) : (s.setRegs w).loaded = s.loaded := rfl
@[simp] theorem State.setRegs_key (w : Vector Byte 16) : (s.setRegs w).key = s.key := rfl
@[simp] theorem State.setRegs_keyInputs (w : Vector Byte 16) : (s.setRegs w).keyInputs = s.keyInputs := rfl
@[simp] theorem State.setRegs_keySamples (w : Vector Byte 16) : (s.setRegs w).keySamples = s.keySamples := rfl
@[simp] theorem State.setRegs_rndInputs (w : Vector Byte 16) : (s.setRegs w).rndInputs = s.rndInputs := rfl
@[simp] theorem State.setRegs_draws (w : Vector Byte 16) : (s.setRegs w).draws = s.draws := rfl

/-! ### setIndex -/

@[simp] theorem State.setIndex_v (w : Word) : (s.setIndex w).v = s.v := rfl
@[simp] theorem State.setIndex_i (w : Word) : (s.setIndex w).i = w := rfl
@[simp] theorem State.setIndex_pc (w : Word) : (s.setIndex w).pc = s.pc := rfl
@[simp] theorem State.setIndex_stack (w : Word) : (s.setIndex w).stack = s.stack := rfl
@[simp] theorem State.setIndex_sp (w : Word) : (s.setIndex w).sp = s.sp := rfl
@[simp] theorem State.setIndex_dt (w : Word) : (s.setIndex w).dt = s.dt := rfl
@[simp] theorem State.setIndex_st (w : Word) : (s.setIndex w).st = s.st := rfl
@[simp] theorem State.setIndex_mem (w : Word) : (s.setIndex w).mem = s.mem := rfl
@[simp] theorem State.setIndex_fb (w : Word) : (s.setIndex w).fb = s.fb := rfl
@[simp] theorem State.setIndex_opcode (w : Word) : (s.setIndex w).opcode = s.opcode := rfl
@[simp] theorem State.setIndex_flt (w : Word) : (s.setIndex w).flt = s.flt := rfl
@[simp] theorem State.setIndex_loaded (w : Word) : (s.setIndex w).loaded = s.loaded := rfl
@[simp] theorem State.setIndex_key (w : Word) : (s.setIndex w).key = s.key := rfl
@[simp] theorem State.setIndex_keyInputs (w : Word) : (s.setIndex w).keyInputs = s.keyInputs := rfl
@[simp] theorem State.setIndex_keySamples (w : Word) : (s.setIndex w).keySamples = s.keySamples := rfl
@[simp] theorem State.setIndex_rndInputs (w : Word) : (s.setIndex w).rndInputs = s.rndInputs := rfl
@[simp] theorem State.setIndex_draws (w : Word) : (s.setIndex w).draws = s.draws := rfl

/-! ### setPc -/

@[simp] theorem State.setPc_v (w : Word) : (s.setPc w).v = s.v := rfl
@[simp] theorem State.setPc_i (w : Word) : (s.setPc w).i = s.i := rfl
@[simp] theorem State.setPc_pc (w : Word) : (s.setPc w).pc = w := rfl
@[simp] theorem State.setPc_stack (w : Word) : (s.setPc w).stack = s.stack := rfl
@[simp] theorem State.setPc_sp (w : Word) : (s.setPc w).sp = s.sp := rfl
@[simp] theorem State.setPc_dt (w : Word) : (s.setPc w).dt = s.dt := rfl
@[simp] theorem State.setPc_st (w : Word) : (s.setPc w).st = s.st := rfl
@[simp] theorem State.setPc_mem (w : Word) : (s.setPc w).mem = s.mem := rfl
@[simp] theorem State.setPc_fb (w : Word) : (s.setPc w).fb = s.fb := rfl
@[simp] theorem State.setPc_opcode (w : Word) : (s.setPc w).opcode = s.opcode := rfl
@[simp] theorem State.setPc_flt (w : Word) : (s.setPc w).flt = s.flt := rfl
@[simp] theorem State.setPc_loaded (w : Word) : (s.setPc w).loaded = s.loaded := rfl
@[simp] theorem State.setPc_key (w : Word) : (s.setPc w).key = s.key := rfl
@[simp] theorem State.setPc_keyInputs (w : Word) : (s.setPc w).keyInputs = s.keyInputs := rfl
@[simp] theorem State.setPc_keySamples (w : Word) : (s.setPc w).keySamples = s.keySamples := rfl
@[simp] theorem State.setPc_rndInputs (w : Word) : (s.setPc w).rndInputs = s.rndInputs := rfl
@[simp] theorem State.setPc_draws (w : Word) : (s.setPc w).draws = s.draws := rfl

/-! ### setDelay -/

@[simp] theorem State.setDelay_v (b : Byte) : (s.setDelay b).v = s.v := rfl
@[simp] theorem State.setDelay_i (b : Byte) : (s.setDelay b).i = s.i := rfl
@[simp] theorem State.setDelay_pc (b : Byte) : (s.setDelay b).pc = s.pc := rfl
@[simp] theorem State.setDelay_stack (b : Byte) : (s.setDelay b).stack = s.stack := rfl
@[simp] theorem State.setDelay_sp (b : Byte) : (s.setDelay b).sp = s.sp := rfl
@[simp] theorem State.setDelay_dt (b : Byte) : (s.setDelay b).dt = b := rfl
@[simp] theorem State.setDelay_st (b : Byte) : (s.setDelay b).st = s.st := rfl
@[simp] theorem State.setDelay_mem (b : Byte) : (s.setDelay b).mem = s.mem := rfl
@[simp] theorem State.setDelay_fb (b : Byte) : (s.setDelay b).fb = s.fb := rfl
@[simp] theorem State.setDelay_opcode (b : Byte) : (s.setDelay b).opcode = s.opcode := rfl
@[simp] theorem State.setDelay_flt (b : Byte) : (s.setDelay b).flt = s.flt := rfl
@[simp] theorem State.setDelay_loaded (b : Byte) : (s.setDelay b).loaded = s.loaded := rfl
@[simp] theorem State.setDelay_key (b : Byte) : (s.setDelay b).key = s.key := rfl
@[simp] theorem State.setDelay_keyInputs (b : Byte) : (s.setDelay b).keyInputs = s.keyInputs := rfl
@[simp] theorem State.setDelay_keySamples (b : Byte) : (s.setDelay b).keySamples = s.keySamples := rfl
@[simp] theorem State.setDelay_rndInputs (b : Byte) : (s.setDelay b).rndInputs = s.rndInputs := rfl
@[simp] theorem State.setDelay_draws (b : Byte) : (s.setDelay b).draws = s.draws := rfl

/-! ### setSound -/

@[simp] theorem State.setSound_v (b : Byte) : (s.setSound b).v = s.v := rfl
@[simp] theorem State.setSound_i (b : Byte) : (s.setSound b).i = s.i := rfl
@[simp] theorem State.setSound_pc (b : Byte) : (s.setSound b).pc = s.pc := rfl
@[simp] theorem State.setSound_stack (b : Byte) : (s.setSound b).stack = s.stack := rfl
@[simp] theorem State.setSound_sp (b : Byte) : (s.setSound b).sp = s.sp := rfl
@[simp] theorem State.setSound_dt (b : Byte) : (s.setSound b).dt = s.dt := rfl
@[simp] theorem State.setSound_st (b : Byte) : (s.setSound b).st = b := rfl
@[simp] theorem State.setSound_mem (b : Byte) : (s.setSound b).mem = s.mem := rfl
@[simp] theorem State.setSound_fb (b : Byte) : (s.setSound b).fb = s.fb := rfl
@[simp] theorem State.setSound_opcode (b : Byte) : (s.setSound b).opcode = s.opcode := rfl
@[simp] theorem State.setSound_flt (b : Byte) : (s.setSound b).flt = s.flt := rfl
@[simp] theorem State.setSound_loaded (b : Byte) : (s.setSound b).loaded = s.loaded := rfl
@[simp] theorem State.setSound_key (b : Byte) : (s.setSound b).key = s.key := rfl
@[simp] theorem State.setSound_keyInputs (b : Byte) : (s.setSound b).keyInputs = s.keyInputs := rfl
@[simp] theorem State.setSound_keySamples (b : Byte) : (s.setSound b).keySamples = s.keySamples := rfl
@[simp] theorem State.setSound_rndInputs (b : Byte) : (s.setSound b).rndInputs = s.rndInputs := rfl
@[simp] theorem State.setSound_draws (b : Byte) : (s.setSound b).draws = s.draws := rfl

/-! ### setMem -/

@[simp] theorem State.setMem_v (m : Memory) : (s.setMem m).v = s.v := rfl
@[simp] theorem State.setMem_i (m : Memory) : (s.setMem m).i = s.i := rfl
@[simp] theorem State.setMem_pc (m : Memory) : (s.setMem m).pc = s.pc := rfl
@[simp] theorem State.setMem_stack (m : Memory) : (s.setMem m).stack = s.stack := rfl
@[simp] theorem State.setMem_sp (m : Memory) : (s.setMem m).sp = s.sp := rfl
@[simp] theorem State.setMem_dt (m : Memory) : (s.setMem m).dt = s.dt := rfl
@[simp] theorem State.setMem_st (m : Memory) : (s.setMem m).st = s.st := rfl
@[simp] theorem State.setMem_mem (m : Memory) : (s.setMem m).mem = m := rfl
@[simp] theorem State.setMem_fb (m : Memory) : (s.setMem m).fb = s.fb := rfl
@[simp] theorem State.setMem_opcode (m : Memory) : (s.setMem m).opcode = s.opcode := rfl
@[simp] theorem State.setMem_flt (m : Memory) : (s.setMem m).flt = s.flt := rfl
@[simp] theorem State.setMem_loaded (m : Memory) : (s.setMem m).loaded = s.loaded := rfl
@[simp] theorem State.setMem_key (m : Memory) : (s.setMem m).key = s.key := rfl
@[simp] theorem State.setMem_keyInputs (m : Memory) : (s.setMem m).keyInputs = s.keyInputs := rfl
@[simp] theorem State.setMem_keySamples (m : Memory) : (s.setMem m).keySamples = s.keySamples := rfl
@[simp] theorem State.setMem_rndInputs (m : Memory) : (s.setMem m).rndInputs = s.rndInputs := rfl
@[simp] theorem State.setMem_draws (m : Memory) : (s.setMem m).draws = s.draws := rfl

/-! ### setDisplay -/

@[simp] theorem State.setDisplay_v (d : Framebuffer) : (s.setDisplay d).v = s.v := rfl
@[simp] theorem State.setDisplay_i (d : Framebuffer) : (s.setDisplay d).i = s.i := rfl
@[simp] theorem State.setDisplay_pc (d : Framebuffer) : (s.setDisplay d).pc = s.pc := rfl
@[simp] theorem State.setDisplay_stack (d : Framebuffer) : (s.setDisplay d).stack = s.stack := rfl
@[simp] theorem State.setDisplay_sp (d : Framebuffer) : (s.setDisplay d).sp = s.sp := rfl
@[simp] theorem State.setDisplay_dt (d : Framebuffer) : (s.setDisplay d).dt = s.dt := rfl
@[simp] theorem State.setDisplay_st (d : Framebuffer) : (s.setDisplay d).st = s.st := rfl
@[simp] theorem State.setDisplay_mem (d : Framebuffer) : (s.setDisplay d).mem = s.mem := rfl
@[simp] theorem State.setDisplay_fb (d : Framebuffer) : (s.setDisplay d).fb = d := rfl
@[simp] theorem State.setDisplay_opcode (d : Framebuffer) : (s.setDisplay d).opcode = s.opcode := rfl
@[simp] theorem State.setDisplay_flt (d : Framebuffer) : (s.setDisplay d).flt = s.flt := rfl
@[simp] theorem State.setDisplay_loaded (d : Framebuffer) : (s.setDisplay d).loaded = s.loaded := rfl
@[simp] theorem State.setDisplay_key (d : Framebuffer) : (s.setDisplay d).key = s.key := rfl
@[simp] theorem State.setDisplay_keyInputs (d : Framebuffer) : (s.setDisplay d).keyInputs = s.keyInputs := rfl
@[simp] theorem State.setDisplay_keySamples (d : Framebuffer) : (s.setDisplay d).keySamples = s.keySamples := rfl
@[simp] theorem State.setDisplay_rndInputs (d : Framebuffer) : (s.setDisplay d).rndInputs = s.rndInputs := rfl
@[simp] theorem State.setDisplay_draws (d : Framebuffer) : (s.setDisplay d).draws = s.draws := rfl

/-! ### skipIf -/

@[simp] theorem State.skipIf_v (c : Bool) : (s.skipIf c).v = s.v := rfl
@[simp] theorem State.skipIf_i (c : Bool) : (s.skipIf c).i = s.i := rfl
@[simp] theorem State.skipIf_pc (c : Bool) : (s.skipIf c).pc = if c then s.pc + 2 else s.pc := rfl
@[simp] theorem State.skipIf_stack (c : Bool) : (s.skipIf c).stack = s.stack := rfl
@[simp] theorem State.skipIf_sp (c : Bool) : (s.skipIf c).sp = s.sp := rfl
@[simp] theorem State.skipIf_dt (c : Bool) : (s.skipIf c).dt = s.dt := rfl
@[simp] theorem State.skipIf_st (c : Bool) : (s.skipIf c).st = s.st := rfl
@[simp] theorem State.skipIf_mem (c : Bool) : (s.skipIf c).mem = s.mem := rfl
@[simp] theorem State.skipIf_fb (c : Bool) : (s.skipIf c).fb = s.fb := rfl
@[simp] theorem State.skipIf_opcode (c : Bool) : (s.skipIf c).opcode = s.opcode := rfl
@[simp] theorem State.skipIf_flt (c : Bool) : (s.skipIf c).flt = s.flt := rfl
@[simp] theorem State.skipIf_loaded (c : Bool) : (s.skipIf c).loaded = s.loaded := rfl
@[simp] theorem State.skipIf_key (c : Bool) : (s.skipIf c).key = s.key := rfl
@[simp] theorem State.skipIf_keyInputs (c : Bool) : (s.skipIf c).keyInputs = s.keyInputs := rfl
@[simp] theorem State.skipIf_keySamples (c : Bool) : (s.skipIf c).keySamples = s.keySamples := rfl
@[simp] theorem State.skipIf_rndInputs (c : Bool) : (s.skipIf c).rndInputs = s.rndInputs := rfl
@[simp] theorem State.skipIf_draws (c : Bool) : (s.skipIf c).draws = s.draws := rfl

/-! ### raise -/

@[simp] theorem State.raise_v (f : Fault) : (s.raise f).v = s.v := rfl
@[simp] theorem State.raise_i (f : Fault) : (s.raise f).i = s.i := rfl
@[simp] theorem State.raise_pc (f : Fault) : (s.raise f).pc = s.pc := rfl
@[simp] theorem State.raise_stack (f : Fault) : (s.raise f).stack = s.stack := rfl
@[simp] theorem State.raise_sp (f : Fault) : (s.raise f).sp = s.sp := rfl
@[simp] theorem State.raise_dt (f : Fault) : (s.raise f).dt = s.dt := rfl
@[simp] theorem State.raise_st (f : Fault) : (s.raise f).st = s.st := rfl
@[simp] theorem State.raise_mem (f : Fault) : (s.raise f).mem = s.mem := rfl
@[simp] theorem State.raise_fb (f : Fault) : (s.raise f).fb = s.fb := rfl
@[simp] theorem State.raise_opcode (f : Fault) : (s.raise f).opcode = s.opcode := rfl
@[simp] theorem State.raise_flt (f : Fault) : (s.raise f).flt = some f := rfl
@[simp] theorem State.raise_loaded (f : Fault) : (s.raise f).loaded = s.loaded := rfl
@[simp] theorem State.raise_key (f : Fault) : (s.raise f).key = s.key := rfl
@[simp] theorem State.raise_keyInputs (f : Fault) : (s.raise f).keyInputs = s.keyInputs := rfl
@[simp] theorem State.raise_keySamples (f : Fault) : (s.raise f).keySamples = s.keySamples := rfl
@[simp] theorem State.raise_rndInputs (f : Fault) : (s.raise f).rndInputs = s.rndInputs := rfl
@[simp] theorem State.raise_draws (f : Fault) : (s.raise f).draws = s.draws := rfl

/-! ### sampleKeys -/

@[simp] theorem State.sampleKeys_v : (s.sampleKeys).v = s.v := rfl
@[simp] theorem State.sampleKeys_i : (s.sampleKeys).i = s.i := rfl
@[simp] theorem State.sampleKeys_pc : (s.sampleKeys).pc = s.pc := rfl
@[simp] theorem State.sampleKeys_stack : (s.sampleKeys).stack = s.stack := rfl
@[simp] theorem State.sampleKeys_sp : (s.sampleKeys).sp = s.sp := rfl
@[simp] theorem State.sampleKeys_dt : (s.sampleKeys).dt = s.dt := rfl
@[simp] theorem State.sampleKeys_st : (s.sampleKeys).st = s.st := rfl
@[simp] theorem State.sampleKeys_mem : (s.sampleKeys).mem = s.mem := rfl
@[simp] theorem State.sampleKeys_fb : (s.sampleKeys).fb = s.fb := rfl
@[simp] theorem State.sampleKeys_opcode : (s.sampleKeys).opcode = s.opcode := rfl
@[simp] theorem State.sampleKeys_flt : (s.sampleKeys).flt = s.flt := rfl
@[simp] theorem State.sampleKeys_loaded : (s.sampleKeys).loaded = s.loaded := rfl
@[simp] theorem State.sampleKeys_key : (s.sampleKeys).key = s.keyInput := rfl
@[simp] theorem State.sampleKeys_keyInputs : (s.sampleKeys).keyInputs = s.keyInputs.tail := rfl
@[simp] theorem State.sampleKeys_keySamples : (s.sampleKeys).keySamples = s.keySamples + 1 := rfl
@[simp] theorem State.sampleKeys_rndInputs : (s.sampleKeys).rndInputs = s.rndInputs := rfl
@[simp] theorem State.sampleKeys_draws : (s.sampleKeys).draws = s.draws := rfl

/-! ### consumeDraw -/

@[simp] theorem State.consumeDraw_v : (s.consumeDraw).v = s.v := rfl
@[simp] theorem State.consumeDraw_i : (s.consumeDraw).i = s.i := rfl
@[simp] theorem State.consumeDraw_pc : (s.consumeDraw).pc = s.pc := rfl
@[simp] theorem State.consumeDraw_stack : (s.consumeDraw).stack = s.stack := rfl
@[simp] theorem State.consumeDraw_sp : (s.consumeDraw).sp = s.sp := rfl
@[simp] theorem State.consumeDraw_dt : (s.consumeDraw).dt = s.dt := rfl
@[simp] theorem State.consumeDraw_st : (s.consumeDraw).st = s.st := rfl
@[simp] theorem State.consumeDraw_mem : (s.consumeDraw).mem = s.mem := rfl
@[simp] theorem State.consumeDraw_fb : (s.consumeDraw).fb = s.fb := rfl
@[simp] theorem State.consumeDraw_opcode : (s.consumeDraw).opcode = s.opcode := rfl
@[simp] theorem State.consumeDraw_flt : (s.consumeDraw).flt = s.flt := rfl
@[simp] theorem State.consumeDraw_loaded : (s.consumeDraw).loaded = s.loaded := rfl
@[simp] theorem State.consumeDraw_key : (s.consumeDraw).key = s.key := rfl
@[simp] theorem State.consumeDraw_keyInputs : (s.consumeDraw).keyInputs = s.keyInputs := rfl
@[simp] theorem State.consumeDraw_keySamples : (s.consumeDraw).keySamples = s.keySamples := rfl
@[simp] theorem State.consumeDraw_rndInputs : (s.consumeDraw).rndInputs = s.rndInputs.tail := rfl
@[simp] theorem State.consumeDraw_draws : (s.consumeDraw).draws = s.draws + 1 := rfl

/-! ### enterHandler -/

@[simp] theorem State.enterHandler_v (op : Word) : (s.enterHandler op).v = s.v := rfl
@[simp] theorem State.enterHandler_i (op : Word) : (s.enterHandler op).i = s.i := rfl
@[simp] theorem State.enterHandler_pc (op : Word) : (s.enterHandler op).pc = s.pc + 2 := rfl
@[simp] theorem State.enterHandler_stack (op : Word) : (s.enterHandler op).stack = s.stack := rfl
@[simp] theorem State.enterHandler_sp (op : Word) : (s.enterHandler op).sp = s.sp := rfl
@[simp] theorem State.enterHandler_dt (op : Word) : (s.enterHandler op).dt = s.dt := rfl
@[simp] theorem State.enterHandler_st (op : Word) : (s.enterHandler op).st = s.st := rfl
@[simp] theorem State.enterHandler_mem (op : Word) : (s.enterHandler op).mem = s.mem := rfl
@[simp] theorem State.enterHandler_fb (op : Word) : (s.enterHandler op).fb = s.fb := rfl
@[simp] theorem State.enterHandler_opcode (op : Word) : (s.enterHandler op).opcode = op := rfl
@[simp] theorem State.enterHandler_flt (op : Word) : (s.enterHandler op).flt = s.flt := rfl
@[simp] theorem State.enterHandler_loaded (op : Word) : (s.enterHandler op).loaded = s.loaded := rfl
@[simp] theorem State.enterHandler_key (op : Word) : (s.enterHandler op).key = s.keyInput := rfl
@[simp] theorem State.enterHandler_keyInputs (op : Word) : (s.enterHandler op).keyInputs = s.keyInputs.tail := rfl
@[simp] theorem State.enterHandler_keySamples (op : Word) : (s.enterHandler op).keySamples = s.keySamples + 1 := rfl
@[simp] theorem State.enterHandler_rndInputs (op : Word) : (s.enterHandler op).rndInputs = s.rndInputs := rfl
@[simp] theorem State.enterHandler_draws (op : Word) : (s.enterHandler op).draws = s.draws := rfl

/-! ### tickTimers -/

@[simp] theorem State.tickTimers_v : (s.tickTimers).v = s.v := rfl
@[simp] theorem State.tickTimers_i : (s.tickTimers).i = s.i := rfl
@[simp] theorem State.tickTimers_pc : (s.tickTimers).pc = s.pc := rfl
@[simp] theorem State.tickTimers_stack : (s.tickTimers).stack = s.stack := rfl
@[simp] theorem State.tickTimers_sp : (s.tickTimers).sp = s.sp := rfl
@[simp] theorem State.tickTimers_dt : (s.tickTimers).dt = tick s.dt := rfl
@[simp] theorem State.tickTimers_st : (s.tickTimers).st = tick s.st := rfl
@[simp] theorem State.tickTimers_mem : (s.tickTimers).mem = s.mem := rfl
@[simp] theorem State.tickTimers_fb : (s.tickTimers).fb = s.fb := rfl
@[simp] theorem State.tickTimers_opcode : (s.tickTimers).opcode = s.opcode := rfl
@[simp] theorem State.tickTimers_flt : (s.tickTimers).flt = s.flt := rfl
@[simp] theorem State.tickTimers_loaded : (s.tickTimers).loaded = s.loaded := rfl
@[simp] theorem State.tickTimers_key : (s.tickTimers).key = s.key := rfl
@[simp] theorem State.tickTimers_keyInputs : (s.tickTimers).keyInputs = s.keyInputs := rfl
@[simp] theorem State.tickTimers_keySamples : (s.tickTimers).keySamples = s.keySamples := rfl
@[simp] theorem State.tickTimers_rndInputs : (s.tickTimers).rndInputs = s.rndInputs := rfl
@[simp] theorem State.tickTimers_draws : (s.tickTimers).draws = s.draws := rfl

/-! ### Accessors after an update -/

theorem State.reg_setReg (r q : Reg) (b : Byte) : (s.setReg r b).reg q = if r = q then b else s.reg q := by
  simp [State.reg, Vector.getElem_set, Fin.ext_iff]

@[simp] theorem State.reg_setReg_self (r : Reg) (b : Byte) : (s.setReg r b).reg r = b := by
  simp [State.reg_setReg]

/-- An update that keeps the field V keeps every register. -/
theorem State.reg_congr {s t : State} (h : t.v = s.v) (r : Reg) : t.reg r = s.reg r := by
  simp [State.reg, h]

/-- An update that keeps the field MEM keeps every byte. -/
theorem State.readByte_congr {s t : State} (h : t.mem = s.mem) (a : Nat) : t.readByte a = s.readByte a := by
  simp [State.readByte, h]

/-! ### Frames -/

theorem UnchangedExcept.refl (parts : List Part) : UnchangedExcept parts s s := by
  intro p _; cases p <;> simp [Part.same]

/-- A frame from plain field equalities: each part either is listed or its fields are equal. -/
theorem UnchangedExcept.of_fields {parts : List Part} {s t : State}
    (hv : .regs ∉ parts → t.v = s.v) (hi : .index ∉ parts → t.i = s.i) (hpc : .pc ∉ parts → t.pc = s.pc)
    (hsp : .sp ∉ parts → t.sp = s.sp) (hstack : .stack ∉ parts → t.stack = s.stack)
    (hdt : .delay ∉ parts → t.dt = s.dt) (hst : .sound ∉ parts → t.st = s.st)
    (hmem : .memory ∉ parts → t.mem = s.mem) (hfb : .display ∉ parts → t.fb = s.fb)
    (hop : .opcode ∉ parts → t.opcode = s.opcode) (hflt : .latch ∉ parts → t.flt = s.flt)
    (hld : .loaded ∉ parts → t.loaded = s.loaded)
    (hk : .keypad ∉ parts → t.key = s.key ∧ t.keyInputs = s.keyInputs ∧ t.keySamples = s.keySamples)
    (hr : .random ∉ parts → t.rndInputs = s.rndInputs ∧ t.draws = s.draws) :
    UnchangedExcept parts s t := by
  intro p hp
  cases p with
  | regs => exact State.reg_congr (hv hp)
  | index => exact hi hp
  | pc => exact hpc hp
  | sp => exact hsp hp
  | stack => exact hstack hp
  | delay => exact hdt hp
  | sound => exact hst hp
  | memory => exact State.readByte_congr (hmem hp)
  | display => intro k; simp [hfb hp]
  | opcode => exact hop hp
  | latch => exact hflt hp
  | loaded => exact hld hp
  | keypad => exact hk hp
  | random => exact hr hp

end Sys2Proof.Machine
end

