-- ==== Sys2Proof/Laws/Memory.lean ====
section
/-! SUPPORT. Memory: a read after a write, and that every memory operation keeps the canonical form. -/

namespace Sys2Proof.Machine

namespace Memory

@[simp] theorem read_nil (a : Nat) : Memory.read [] a = resetByte a := rfl

/-- The reset contents in numbers. -/
theorem resetByte_eq (a : Nat) : resetByte a = if 80 ≤ a then Config.fontData.getD (a - 80) 0 else 0 := rfl

theorem wf_nil : Memory.wf [] := by simp [Memory.wf]

theorem wf_cons {c : Host.Cell} {m : Memory} (h : Memory.wf (c :: m)) :
    Memory.wf m ∧ (∀ d ∈ m, c.1 < d.1) ∧ c.1 < Config.memSize ∧ c.2 ≠ resetByte c.1 := by
  obtain ⟨hp, hm⟩ := h
  rw [List.pairwise_cons] at hp
  exact ⟨⟨hp.2, fun d hd => hm d (List.mem_cons_of_mem _ hd)⟩, hp.1, hm c List.mem_cons_self⟩

/-- Below every listed address nothing is listed. -/
theorem read_of_lt {m : Memory} {a : Nat} (h : ∀ c ∈ m, a < c.1) : m.read a = resetByte a := by
  induction m with
  | nil => rfl
  | cons c m ih =>
    have hc := h c List.mem_cons_self
    rw [Memory.read, if_neg (by omega)]
    exact ih fun d hd => h d (List.mem_cons_of_mem _ hd)

/-- A byte above memory is not listed. -/
theorem read_of_memSize_le {m : Memory} (hm : m.wf) {a : Nat} (h : Config.memSize ≤ a) : m.read a = resetByte a := by
  induction m with
  | nil => rfl
  | cons c m ih =>
    obtain ⟨hw, -, hc, -⟩ := wf_cons hm
    rw [Memory.read, if_neg (by omega)]
    exact ih hw

/-- Read after write: the written byte there, every other byte as before. -/
theorem read_write {m : Memory} (hm : m.wf) (a : Nat) (b : Byte) (a' : Nat) :
    (m.write a b).read a' = if a' = a then b else m.read a' := by
  induction m with
  | nil =>
    simp only [Memory.write]
    split <;> rename_i hb
    · split <;> simp_all
    · simp only [Memory.read, eq_comm (a := a)]
  | cons c m ih =>
    obtain ⟨hw, hlt, -, -⟩ := wf_cons hm
    obtain ⟨a₀, b₀⟩ := c
    have ih := ih hw
    simp only [Memory.write]
    split
    · rename_i h1
      have hbelow : Memory.read ((a₀, b₀) :: m) a = resetByte a :=
        read_of_lt (by rintro d (_ | ⟨_, hd⟩)
                       · exact h1
                       · exact lt_trans h1 (hlt d hd))
      split <;> rename_i hb
      · by_cases h2 : a' = a
        · subst h2; rw [hbelow, if_pos rfl, hb]
        · rw [if_neg h2]
      · simp only [Memory.read, eq_comm (a := a)]
    · split
      · rename_i h1 h2
        subst h2
        split <;> rename_i hb
        · by_cases h3 : a' = a
          · subst h3; rw [read_of_lt hlt, if_pos rfl, hb]
          · simp only [Memory.read, if_neg h3, if_neg (Ne.symm h3)]
        · simp only [Memory.read, eq_comm (a := a)]
          split <;> simp_all
      · rename_i h1 h2
        simp only [Memory.read, ih]
        split
        · rename_i h3; subst h3; rw [if_neg (Ne.symm h2)]
        · rfl

/-- What a write may list: the written address, or what was listed. -/
theorem mem_write {m : Memory} {a : Nat} {b : Byte} {c : Host.Cell} (h : c ∈ m.write a b) :
    (c = (a, b) ∧ b ≠ resetByte a) ∨ c ∈ m := by
  induction m with
  | nil =>
    simp only [Memory.write] at h
    split at h <;> simp_all
  | cons d m ih =>
    obtain ⟨a₀, b₀⟩ := d
    simp only [Memory.write] at h
    split at h
    · split at h <;> simp_all
    · split at h
      · split at h
        · exact Or.inr (List.mem_cons_of_mem _ h)
        · simp only [List.mem_cons] at h ⊢
          rcases h with h | h <;> simp_all
      · simp only [List.mem_cons] at h ⊢
        rcases h with h | h
        · exact Or.inr (Or.inl h)
        · rcases ih h with h | h
          · exact Or.inl h
          · exact Or.inr (Or.inr h)

/-- A write to an existing address keeps the canonical form. -/
theorem wf_write {m : Memory} (hm : m.wf) {a : Nat} (ha : a < Config.memSize) (b : Byte) : (m.write a b).wf := by
  refine ⟨?_, fun c hc => ?_⟩
  · induction m with
    | nil => simp only [Memory.write]; split <;> simp
    | cons c m ih =>
      obtain ⟨hw, hlt, -, -⟩ := wf_cons hm
      have hp := hm.1
      have ih := ih hw
      obtain ⟨a₀, b₀⟩ := c
      simp only [Memory.write]
      split
      · rename_i h1
        split
        · exact hp
        · refine List.pairwise_cons.2 ⟨?_, hp⟩
          rintro d (_ | ⟨_, hd⟩)
          · exact h1
          · exact lt_trans h1 (hlt d hd)
      · split
        · rename_i h1 h2
          subst h2
          split
          · exact (List.pairwise_cons.1 hp).2
          · exact List.pairwise_cons.2 ⟨hlt, (List.pairwise_cons.1 hp).2⟩
        · rename_i h1 h2
          refine List.pairwise_cons.2 ⟨fun d hd => ?_, ih⟩
          rcases mem_write hd with ⟨rfl, -⟩ | hd
          · simp only; omega
          · exact hlt d hd
  · rcases mem_write hc with ⟨rfl, hb⟩ | h
    · exact ⟨ha, hb⟩
    · exact hm.2 c h

/-- Storing bytes at existing addresses keeps the canonical form. -/
theorem wf_writeMany {bs : List Byte} : ∀ {m : Memory} {a : Nat}, m.wf → a + bs.length ≤ Config.memSize →
    (m.writeMany a bs).wf := by
  induction bs with
  | nil => intro m a hm _; exact hm
  | cons b bs ih =>
    intro m a hm h
    simp only [List.length_cons] at h
    exact ih (wf_write hm (by omega) b) (by omega)

/-- Read after storing bytes: a stored byte at its address, every other byte as before. -/
theorem read_writeMany {bs : List Byte} : ∀ {m : Memory} {a : Nat}, m.wf → a + bs.length ≤ Config.memSize →
    ∀ a', (m.writeMany a bs).read a' =
      if a ≤ a' ∧ a' < a + bs.length then bs.getD (a' - a) 0 else m.read a' := by
  induction bs with
  | nil => intro m a _ _ a'; rw [if_neg (by simp)]; rfl
  | cons b bs ih =>
    intro m a hm h a'
    simp only [List.length_cons] at h ⊢
    rw [Memory.writeMany, ih (wf_write hm (by omega) b) (by omega), read_write hm]
    by_cases h1 : a' = a
    · subst h1
      rw [if_neg (by omega), if_pos rfl, if_pos (by omega)]; simp
    · rw [if_neg h1]
      by_cases h2 : a + 1 ≤ a' ∧ a' < a + 1 + bs.length
      · rw [if_pos h2, if_pos (by omega), show a' - a = (a' - (a + 1)) + 1 by omega, List.getD_cons_succ]
      · rw [if_neg h2, if_neg (by omega)]

@[simp] theorem length_readMany (m : Memory) (a n : Nat) : (m.readMany a n).length = n := by
  induction n generalizing a with
  | zero => rfl
  | succ n ih => simp [Memory.readMany, ih]

theorem getD_readMany (m : Memory) (a n j : Nat) (h : j < n) (d : Byte) :
    (m.readMany a n).getD j d = m.read (a + j) := by
  induction n generalizing a j with
  | zero => omega
  | succ n ih =>
    cases j with
    | zero => simp [Memory.readMany]
    | succ j =>
      rw [Memory.readMany, List.getD_cons_succ, ih (a + 1) j (by omega)]
      congr 1; omega

end Memory

/-! ### The range test -/

theorem rangeFault_eq_none {addr n : Nat} : rangeFault addr n = none ↔ addr + n ≤ 4096 := by
  show _ ↔ addr + n ≤ Config.memSize
  by_cases h : addr + n ≤ Config.memSize
  · rw [rangeFault, if_pos h]; exact iff_of_true rfl h
  · rw [rangeFault, if_neg h]; exact iff_of_false (by simp) h

/-- The range test's fault: the lowest offending address of `n ≥ 1` bytes. -/
theorem rangeFault_eq_some {addr n : Nat} {f : Fault} :
    rangeFault addr n = some f ↔ 4096 < addr + n ∧ f = .addressOutOfRange (if 4096 ≤ addr then addr else 4096) := by
  show _ ↔ Config.memSize < addr + n ∧
    f = .addressOutOfRange (if Config.memSize ≤ addr then addr else Config.memSize)
  by_cases h : addr + n ≤ Config.memSize
  · rw [rangeFault, if_pos h]
    exact iff_of_false (by simp) fun h' => absurd h'.1 (by omega)
  · rw [rangeFault, if_neg h, Option.some.injEq, eq_comm]
    exact ⟨fun h' => ⟨by omega, h'⟩, fun h' => h'.2⟩

/-- MemRead in range. -/
theorem memRead_eq_ok {m : Memory} {addr n : Nat} {bs : List Byte} :
    memRead m addr n = .ok bs ↔ addr + n ≤ 4096 ∧ bs = m.readMany addr n := by
  unfold memRead
  split <;> rename_i h
  · rw [rangeFault_eq_none] at h; simp [h, eq_comm]
  · rw [rangeFault_eq_some] at h; simp; omega

/-- MemRead out of range. -/
theorem memRead_eq_error {m : Memory} {addr n : Nat} {f : Fault} :
    memRead m addr n = .error f ↔
      4096 < addr + n ∧ f = .addressOutOfRange (if 4096 ≤ addr then addr else 4096) := by
  rw [← rangeFault_eq_some]
  unfold memRead
  split <;> simp_all

/-- MemWrite in range. -/
theorem memWrite_eq_ok {m m' : Memory} {addr : Nat} {bs : List Byte} :
    memWrite m addr bs = .ok m' ↔ addr + bs.length ≤ 4096 ∧ m' = m.writeMany addr bs := by
  unfold memWrite
  split <;> rename_i h
  · rw [rangeFault_eq_none] at h; simp [h, eq_comm]
  · rw [rangeFault_eq_some] at h; simp; omega

/-- MemWrite out of range. -/
theorem memWrite_eq_error {m : Memory} {addr : Nat} {bs : List Byte} {f : Fault} :
    memWrite m addr bs = .error f ↔
      4096 < addr + bs.length ∧ f = .addressOutOfRange (if 4096 ≤ addr then addr else 4096) := by
  rw [← rangeFault_eq_some]
  unfold memWrite
  split <;> simp_all

/-- A MemWrite that succeeds keeps the canonical form. -/
theorem wf_memWrite {m m' : Memory} {addr : Nat} {bs : List Byte} (hm : m.wf) (h : memWrite m addr bs = .ok m') :
    m'.wf := by
  obtain ⟨hr, rfl⟩ := memWrite_eq_ok.1 h
  exact Memory.wf_writeMany hm (by simpa using hr)

end Sys2Proof.Machine
end

