-- ==== Sys2Proof/Laws/Ops.lean ====
section
/-! SUPPORT. What the shared operations do: stack, register lists, display, keypad, timers, the end of a Step. -/

namespace Sys2Proof.Machine

/-! ### Call stack -/

/-- A push below the capacity. -/
theorem State.pushReturn_of_lt {s : State} (h : s.sp.val < 16) :
    s.pushReturn = some { s with stack := s.stack.set s.sp.val s.pc, sp := ⟨s.sp.val + 1, by omega⟩ } := by
  rw [State.pushReturn, dif_pos (by simpa using h)]

/-- A push at the capacity. -/
theorem State.pushReturn_of_full {s : State} (h : s.sp.val = 16) : s.pushReturn = none := by
  rw [State.pushReturn, dif_neg (by simp [h])]

/-- A pop of a stack that is not empty. -/
theorem State.popReturn_of_ne {s : State} (h : s.sp.val ≠ 0) :
    s.popReturn = some { s with sp := ⟨s.sp.val - 1, by omega⟩, pc := s.stack[s.sp.val - 1] } := by
  rw [State.popReturn, dif_neg h]

/-- A pop of an empty stack. -/
theorem State.popReturn_of_empty {s : State} (h : s.sp.val = 0) : s.popReturn = none := by
  rw [State.popReturn, dif_pos h]

/-! ### Lists of registers -/

/-- LOAD's writes: a loaded register holds its byte, every other register is as before. -/
theorem getElem_loadRegs {bs : List Byte} : ∀ {v : Vector Byte 16} {k : Nat} (j : Nat) (hj : j < 16),
    (loadRegs v k bs)[j] = if k ≤ j ∧ j < k + bs.length then bs.getD (j - k) 0 else v[j] := by
  induction bs with
  | nil => intro v k j hj; rw [if_neg (by simp)]; rfl
  | cons b bs ih =>
    intro v k j hj
    rw [loadRegs, ih j hj, List.length_cons]
    by_cases h1 : j = k
    · subst h1
      rw [if_neg (by omega), if_pos (by omega)]
      simp
    · rw [Vector.getElem_setIfInBounds_ne (by omega) (Ne.symm h1)]
      by_cases h2 : k + 1 ≤ j ∧ j < k + 1 + bs.length
      · rw [if_pos h2, if_pos (by omega), show j - k = (j - (k + 1)) + 1 by omega, List.getD_cons_succ]
      · rw [if_neg h2, if_neg (by omega)]

@[simp] theorem State.length_firstRegs (s : State) (x : Reg) : (s.firstRegs x).length = x.val + 1 := by
  have := x.isLt
  simp [State.firstRegs, regCount]

theorem State.getD_firstRegs (s : State) (x : Reg) (j : Nat) (hj : j ≤ x.val) :
    (s.firstRegs x).getD j 0 = s.reg ⟨j, by omega⟩ := by
  have := x.isLt
  rw [List.getD_eq_getElem _ _ (by rw [State.length_firstRegs]; omega)]
  simp [State.firstRegs, State.reg]

@[simp] theorem length_bcdDigits (x : Byte) : (bcdDigits x).length = 3 := rfl

/-! ### Display -/

theorem Framebuffer.cell_def (fb : Framebuffer) (k : Nat) :
    fb.cell k = (fb[k / 64]?.getD 0).getLsbD (k % 64) := by
  rfl

@[simp] theorem Framebuffer.cell_blank (k : Nat) : Framebuffer.blank.cell k = false := by
  rw [Framebuffer.cell_def]
  by_cases h : k / 64 < 32 <;> simp [Framebuffer.blank, h]

/-- There is no cell beyond the grid. -/
theorem Framebuffer.cell_of_le (fb : Framebuffer) {k : Nat} (h : 2048 ≤ k) : fb.cell k = false := by
  rw [Framebuffer.cell_def, Vector.getElem?_eq_none (by omega)]
  simp

/-- A toggle changes its cell and no other. -/
theorem Framebuffer.cell_toggle (fb : Framebuffer) {k : Nat} (hk : k < 2048) (j : Nat) :
    (fb.toggle k).cell j = (fb.cell j ^^ decide (j = k)) := by
  have hr : k / 64 < 32 := by omega
  have ht : fb.toggle k = fb.setIfInBounds (k / 64) (fb[k / 64]?.getD 0 ^^^ BitVec.twoPow 64 (k % 64)) := by
    rfl
  rw [ht, Framebuffer.cell_def, Framebuffer.cell_def, Vector.getElem?_setIfInBounds]
  by_cases h : k / 64 = j / 64
  · have hc : k % 64 < 64 := Nat.mod_lt _ (by omega)
    rw [if_pos h, if_pos hr, Option.getD_some, BitVec.getLsbD_xor, BitVec.getLsbD_twoPow, h]
    have hiff : (decide (k % 64 < 64) && decide (k % 64 = j % 64)) = decide (j = k) := by
      simp only [hc, decide_true, Bool.true_and, decide_eq_decide]; omega
    rw [hiff]
  · have : j ≠ k := by rintro rfl; exact h rfl
    rw [if_neg h]; simp [this]

/-- Two displays with the same cells are the same display. -/
theorem Framebuffer.ext_cell {a b : Framebuffer} (h : ∀ k, a.cell k = b.cell k) : a = b := by
  apply Vector.ext
  intro r hr
  apply BitVec.eq_of_getLsbD_eq
  intro c hc
  have := h (64 * r + c)
  rwa [Framebuffer.cell_def, Framebuffer.cell_def, show (64 * r + c) / 64 = r by omega,
    show (64 * r + c) % 64 = c by omega, Vector.getElem?_eq_getElem hr, Vector.getElem?_eq_getElem hr,
    Option.getD_some, Option.getD_some] at this

/-- Toggling distinct cells of the grid: exactly those cells change, and the flag says whether one of them was lit. -/
theorem toggleCells_spec {ks : List Nat} : ∀ {fb : Framebuffer} {hit : Bool}, ks.Nodup → (∀ k ∈ ks, k < 2048) →
    (∀ j, (toggleCells fb hit ks).1.cell j = (fb.cell j ^^ decide (j ∈ ks))) ∧
    (toggleCells fb hit ks).2 = (hit || ks.any fb.cell) := by
  induction ks with
  | nil => intro fb hit _ _; simp [toggleCells]
  | cons k ks ih =>
    intro fb hit hn hb
    rw [List.nodup_cons] at hn
    have hk : k < 2048 := hb k List.mem_cons_self
    obtain ⟨h1, h2⟩ := ih (fb := fb.toggle k) (hit := hit || fb.cell k) hn.2
      fun j hj => hb j (List.mem_cons_of_mem _ hj)
    refine ⟨fun j => ?_, ?_⟩
    · rw [toggleCells, h1, Framebuffer.cell_toggle fb hk]
      by_cases h : j = k
      · subst h; simp [hn.1]
      · simp [h]
    · rw [toggleCells, h2, List.any_cons, Bool.or_assoc]
      congr 2
      rw [Bool.eq_iff_iff, List.any_eq_true, List.any_eq_true]
      refine exists_congr fun j => and_congr_right fun hj => ?_
      have : j ≠ k := by rintro rfl; exact hn.1 hj
      rw [Framebuffer.cell_toggle fb hk]; simp [this]

/-- The offsets of a sprite's set bits. -/
theorem mem_setOffsets {rows : List Byte} : ∀ {r : Nat} {p : Nat × Nat},
    p ∈ setOffsets r rows ↔
      r ≤ p.1 ∧ p.1 < r + rows.length ∧ p.2 < 8 ∧ (rows.getD (p.1 - r) 0).getLsbD (7 - p.2) = true := by
  induction rows with
  | nil => intro r p; simp only [setOffsets, List.not_mem_nil, List.length_nil, false_iff]; omega
  | cons b rows ih =>
    rintro r ⟨pr, pc⟩
    simp only [setOffsets, List.mem_append, List.mem_map, setColumns, List.mem_filter, List.mem_range, Prod.mk.injEq,
      ih, List.length_cons]
    by_cases h : pr = r
    · subst h
      simp only [Nat.sub_self, List.getD_cons_zero]
      constructor
      · rintro (⟨c, hc, -, rfl⟩ | h)
        · exact ⟨le_refl _, by omega, hc.1, hc.2⟩
        · omega
      · exact fun h => Or.inl ⟨pc, ⟨h.2.2.1, h.2.2.2⟩, trivial, rfl⟩
    · by_cases h2 : r ≤ pr
      · rw [show pr - r = (pr - (r + 1)) + 1 by omega, List.getD_cons_succ]
        constructor
        · rintro (⟨c, -, h', -⟩ | h')
          · exact absurd h'.symm h
          · exact ⟨h2, by omega, h'.2.2⟩
        · exact fun h' => Or.inr ⟨by omega, by omega, h'.2.2⟩
      · constructor
        · rintro (⟨c, -, h', -⟩ | h')
          · exact absurd h'.symm h
          · omega
        · omega

theorem nodup_setOffsets {rows : List Byte} : ∀ {r : Nat}, (setOffsets r rows).Nodup := by
  induction rows with
  | nil => intro r; simp [setOffsets]
  | cons b rows ih =>
    intro r
    rw [setOffsets, List.nodup_append]
    refine ⟨?_, ih, ?_⟩
    · exact ((List.nodup_range).filter _).map fun c d h => by simpa using h
    · rintro p hp q hq rfl
      obtain ⟨c, -, rfl⟩ := List.mem_map.1 hp
      have := (mem_setOffsets.1 hq).1
      simp only at this; omega

/-! ### Keypad and timers -/

theorem keyIndex_eq_ok {x : Byte} {k : Nat} : keyIndex x = .ok k ↔ x.toNat ≤ 15 ∧ k = x.toNat := by
  by_cases h : x.toNat ≤ 15 <;> simp [keyIndex, h, eq_comm]

theorem keyIndex_eq_error {x : Byte} {f : Fault} :
    keyIndex x = .error f ↔ 15 < x.toNat ∧ f = .keyIndexOutOfRange x.toNat := by
  by_cases h : x.toNat ≤ 15
  · simp [keyIndex, h]
  · simp only [keyIndex, h, if_false, Except.error.injEq, eq_comm (b := f)]
    exact ⟨fun h' => ⟨by omega, h'⟩, fun h' => h'.2⟩

/-- The scan finds the lowest pressed key. -/
theorem State.firstKey_eq_some {s : State} {k : Nat} :
    s.firstKey = some k ↔ k < 16 ∧ s.keyPressed k = true ∧ ∀ j < k, s.keyPressed j = false := by
  rw [State.firstKey, List.find?_range_eq_some]
  simp only [List.mem_range]
  constructor
  · rintro ⟨h1, h2, h3⟩; exact ⟨h2, h1, fun j hj => by simpa using h3 j hj⟩
  · rintro ⟨h1, h2, h3⟩; exact ⟨h2, h1, fun j hj => by simpa using h3 j hj⟩

/-- The scan finds nothing when no key is pressed. -/
theorem State.firstKey_eq_none {s : State} : s.firstKey = none ↔ ∀ k < 16, s.keyPressed k = false := by
  rw [State.firstKey, List.find?_range_eq_none]
  simp

theorem tick_toNat (t : Byte) : (tick t).toNat = t.toNat - 1 := by
  unfold tick
  split
  · rename_i h; subst h; rfl
  · rename_i h
    have h0 : t.toNat ≠ 0 := fun h' => h (BitVec.eq_of_toNat_eq (by simpa using h'))
    have := t.isLt
    rw [BitVec.toNat_sub]; simp; omega

/-! ### The end of a Step -/

theorem State.endStep_of_none {s t : State} (h : t.flt = none) : s.endStep t = t.tickTimers := by
  simp [State.endStep, h]

theorem State.endStep_of_some {s t : State} {f : Fault} (h : t.flt = some f) : s.endStep t = s.raise f := by
  simp [State.endStep, h]

theorem State.endStep_flt (s t : State) : (s.endStep t).flt = t.flt := by
  cases h : t.flt with
  | none => simp [State.endStep_of_none h, h]
  | some f => simp [State.endStep_of_some h]

/-! ### A fault-or-result -/

@[simp] theorem State.orRaise_ok {α : Type} (s : State) (a : α) (k : α → State) : s.orRaise (.ok a) k = k a := rfl

@[simp] theorem State.orRaise_error {α : Type} (s : State) (f : Fault) (k : α → State) :
    s.orRaise (.error f) k = s.raise f := rfl

/-- One of the two things a fault-or-result leads to. -/
theorem State.orRaise_cases {α : Type} {s t : State} {r : Except Fault α} {k : α → State} (h : s.orRaise r k = t) :
    (∃ a, r = .ok a ∧ t = k a) ∨ ∃ f, r = .error f ∧ t = s.raise f := by
  cases r with
  | ok a => exact Or.inl ⟨a, rfl, h.symm⟩
  | error f => exact Or.inr ⟨f, rfl, h.symm⟩

end Sys2Proof.Machine
end

