-- ==== Sys2Proof/Laws/Display.lean ====
section
/-! SUPPORT. What the parts of DRW can do, said once: the mapping of one set bit for each DRAW_EDGE, the sprite's set
bits in terms of `spriteBit`, and the mapping of a whole list of set bits. -/

namespace Sys2Proof.Machine

/-! ### One set bit -/

theorem cellOf_linear (x y : Nat) :
    cellOf .linear x y =
      if 64 * y + x < 2048 then .ok (some (64 * y + x)) else .error (.displayOutOfRange (64 * y + x)) := rfl

theorem cellOf_wrap (x y : Nat) : cellOf .wrap x y = .ok (some (64 * (y % 32) + x % 64)) := rfl

theorem onGrid_eq_true {x y : Nat} : onGrid x y = true ↔ x < 64 ∧ y < 32 := by
  show (decide (x < 64) && decide (y < 32)) = true ↔ _
  simp

theorem cellOf_clip (x y : Nat) : cellOf .clip x y = .ok (if onGrid x y then some (64 * y + x) else none) := rfl

theorem cellOf_fault (x y : Nat) :
    cellOf .fault x y =
      if onGrid x y then .ok (some (64 * y + x)) else .error (.displayOutOfRange (64 * y + x)) := rfl

/-- On the grid the four modes agree. -/
theorem cellOf_of_onGrid {x y : Nat} (h : x < 64 ∧ y < 32) (e : Config.DrawEdge) :
    cellOf e x y = .ok (some (64 * y + x)) := by
  have hg := onGrid_eq_true.2 h
  cases e with
  | linear => rw [cellOf_linear, if_pos (by omega)]
  | wrap => rw [cellOf_wrap, Nat.mod_eq_of_lt h.1, Nat.mod_eq_of_lt h.2]
  | clip => rw [cellOf_clip, if_pos hg]
  | fault => rw [cellOf_fault, if_pos hg]

/-! ### The sprite -/

theorem spriteRows_of_inMemory {s : State} {n : RowCount} (h : SpriteInMemory s n) :
    spriteRows s n = .ok (s.mem.readMany s.i.toNat n.val) := by
  unfold spriteRows
  split
  · rename_i h0; rw [h0]; rfl
  · exact memRead_eq_ok.2 ⟨h.resolve_left ‹_›, rfl⟩

theorem spriteRows_of_not_inMemory {s : State} {n : RowCount} (h : ¬ SpriteInMemory s n) :
    spriteRows s n = .error (.addressOutOfRange (if 4096 ≤ s.i.toNat then s.i.toNat else 4096)) := by
  obtain ⟨h0, h1⟩ := not_or.1 h
  rw [spriteRows, if_neg h0]
  exact memRead_eq_error.2 ⟨Nat.lt_of_not_le h1, rfl⟩

/-- The offsets of the set bits of the rows in memory are those of `spriteBit`. -/
theorem mem_setOffsets_readMany {s : State} {n : Nat} {p : Nat × Nat} :
    p ∈ setOffsets 0 (s.mem.readMany s.i.toNat n) ↔ p.1 < n ∧ p.2 < 8 ∧ spriteBit s p.1 p.2 = true := by
  rw [mem_setOffsets]
  simp only [Memory.length_readMany, Nat.zero_le, true_and, Nat.zero_add, Nat.sub_zero]
  refine and_congr_right fun h => ?_
  rw [Memory.getD_readMany _ _ _ _ h]
  rfl

/-- The set bits come in loop order: rows ascending, columns ascending. -/
theorem pairwise_setOffsets {rows : List Byte} :
    ∀ {r : Nat}, (setOffsets r rows).Pairwise fun p q => p.1 < q.1 ∨ p.1 = q.1 ∧ p.2 < q.2 := by
  induction rows with
  | nil => intro r; simp [setOffsets]
  | cons b rows ih =>
    intro r
    rw [setOffsets, List.pairwise_append]
    refine ⟨?_, ih, fun p hp q hq => ?_⟩
    · rw [List.pairwise_map]
      have h : (setColumns b).Pairwise (· < ·) := List.Pairwise.filter _ List.pairwise_lt_range
      exact h.imp fun h => Or.inr ⟨rfl, h⟩
    · obtain ⟨c, -, rfl⟩ := List.mem_map.1 hp
      exact Or.inl (by have := (mem_setOffsets.1 hq).1; simp only; omega)

/-! ### All set bits -/

theorem cellsOf_cons_ok {e : Config.DrawEdge} {x0 y0 r c : Nat} {ps : List (Nat × Nat)} {k : Option Nat} {ks : List Nat}
    (h : cellOf e (x0 + c) (y0 + r) = .ok k) (hs : cellsOf e x0 y0 ps = .ok ks) :
    cellsOf e x0 y0 ((r, c) :: ps) = .ok (k.toList ++ ks) := by
  simp only [cellsOf, h, hs]

theorem cellsOf_cons_error {e : Config.DrawEdge} {x0 y0 r c : Nat} {ps : List (Nat × Nat)} {f : Fault}
    (h : cellOf e (x0 + c) (y0 + r) = .error f) : cellsOf e x0 y0 ((r, c) :: ps) = .error f := by
  simp only [cellsOf, h]

theorem cellsOf_cons_error_later {e : Config.DrawEdge} {x0 y0 r c : Nat} {ps : List (Nat × Nat)} {k : Option Nat}
    {f : Fault} (h : cellOf e (x0 + c) (y0 + r) = .ok k) (hs : cellsOf e x0 y0 ps = .error f) :
    cellsOf e x0 y0 ((r, c) :: ps) = .error f := by
  simp only [cellsOf, h, hs]

/-- When every set bit maps to a cell, the cells are theirs in order. -/
theorem cellsOf_eq_map {e : Config.DrawEdge} {x0 y0 : Nat} : ∀ {ps : List (Nat × Nat)},
    (∀ p ∈ ps, cellOf e (x0 + p.2) (y0 + p.1) = .ok (some (64 * (y0 + p.1) + (x0 + p.2)))) →
    cellsOf e x0 y0 ps = .ok (ps.map fun p => 64 * (y0 + p.1) + (x0 + p.2))
  | [], _ => rfl
  | (r, c) :: ps, h => by
    rw [cellsOf_cons_ok (h (r, c) List.mem_cons_self)
      (cellsOf_eq_map fun p hp => h p (List.mem_cons_of_mem _ hp))]
    rfl

/-- `wrap` and `clip` never fault. -/
theorem cellsOf_ok_of_cellOf_ok {e : Config.DrawEdge} {x0 y0 : Nat} (h : ∀ x y, ∃ k, cellOf e x y = .ok k) :
    ∀ ps : List (Nat × Nat), ∃ ks, cellsOf e x0 y0 ps = .ok ks
  | [] => ⟨_, rfl⟩
  | (r, c) :: ps => by
    obtain ⟨k, hk⟩ := h (x0 + c) (y0 + r)
    obtain ⟨ks, hks⟩ := cellsOf_ok_of_cellOf_ok h ps
    exact ⟨_, cellsOf_cons_ok hk hks⟩

end Sys2Proof.Machine
end

