-- ==== Sys2Proof/Laws/PerInstr.lean ====
section
/-! SUPPORT. Per instruction: the fields that the decoder tests and extracts, read from the encoded word, are the row's
numbers (30_encoding.md R47) and the instruction's own operands (00_scope.md R7). -/

namespace Sys2Proof.Laws.EncodeFields

/-- The tested and extracted fields of an instruction's word. -/
def Statement : Instr → Prop
  | .cls => fieldT (encode .cls) = 0x0#4 ∧ subNibble (encode .cls) = 0x0#4
  | .ret => fieldT (encode .ret) = 0x0#4 ∧ subNibble (encode .ret) = 0xE#4
  | .jp nnn => fieldT (encode (.jp nnn)) = 0x1#4 ∧ fieldNNN (encode (.jp nnn)) = nnn
  | .call nnn => fieldT (encode (.call nnn)) = 0x2#4 ∧ fieldNNN (encode (.call nnn)) = nnn
  | .se x nn => fieldT (encode (.se x nn)) = 0x3#4 ∧ fieldX (encode (.se x nn)) = x ∧
      fieldNN (encode (.se x nn)) = nn
  | .sne x nn => fieldT (encode (.sne x nn)) = 0x4#4 ∧ fieldX (encode (.sne x nn)) = x ∧
      fieldNN (encode (.sne x nn)) = nn
  | .ser x y => fieldT (encode (.ser x y)) = 0x5#4 ∧ fieldX (encode (.ser x y)) = x ∧
      fieldY (encode (.ser x y)) = y
  | .ldi x nn => fieldT (encode (.ldi x nn)) = 0x6#4 ∧ fieldX (encode (.ldi x nn)) = x ∧
      fieldNN (encode (.ldi x nn)) = nn
  | .addi x nn => fieldT (encode (.addi x nn)) = 0x7#4 ∧ fieldX (encode (.addi x nn)) = x ∧
      fieldNN (encode (.addi x nn)) = nn
  | .mov x y => fieldT (encode (.mov x y)) = 0x8#4 ∧ fieldX (encode (.mov x y)) = x ∧
      fieldY (encode (.mov x y)) = y ∧ subNibble (encode (.mov x y)) = 0x0#4
  | .or x y => fieldT (encode (.or x y)) = 0x8#4 ∧ fieldX (encode (.or x y)) = x ∧
      fieldY (encode (.or x y)) = y ∧ subNibble (encode (.or x y)) = 0x1#4
  | .and x y => fieldT (encode (.and x y)) = 0x8#4 ∧ fieldX (encode (.and x y)) = x ∧
      fieldY (encode (.and x y)) = y ∧ subNibble (encode (.and x y)) = 0x2#4
  | .xor x y => fieldT (encode (.xor x y)) = 0x8#4 ∧ fieldX (encode (.xor x y)) = x ∧
      fieldY (encode (.xor x y)) = y ∧ subNibble (encode (.xor x y)) = 0x3#4
  | .add x y => fieldT (encode (.add x y)) = 0x8#4 ∧ fieldX (encode (.add x y)) = x ∧
      fieldY (encode (.add x y)) = y ∧ subNibble (encode (.add x y)) = 0x4#4
  | .sub x y => fieldT (encode (.sub x y)) = 0x8#4 ∧ fieldX (encode (.sub x y)) = x ∧
      fieldY (encode (.sub x y)) = y ∧ subNibble (encode (.sub x y)) = 0x5#4
  | .shr x y => fieldT (encode (.shr x y)) = 0x8#4 ∧ fieldX (encode (.shr x y)) = x ∧
      fieldY (encode (.shr x y)) = y ∧ subNibble (encode (.shr x y)) = 0x6#4
  | .subn x y => fieldT (encode (.subn x y)) = 0x8#4 ∧ fieldX (encode (.subn x y)) = x ∧
      fieldY (encode (.subn x y)) = y ∧ subNibble (encode (.subn x y)) = 0x7#4
  | .shl x y => fieldT (encode (.shl x y)) = 0x8#4 ∧ fieldX (encode (.shl x y)) = x ∧
      fieldY (encode (.shl x y)) = y ∧ subNibble (encode (.shl x y)) = 0xE#4
  | .sner x y => fieldT (encode (.sner x y)) = 0x9#4 ∧ fieldX (encode (.sner x y)) = x ∧
      fieldY (encode (.sner x y)) = y
  | .ldix nnn => fieldT (encode (.ldix nnn)) = 0xA#4 ∧ fieldNNN (encode (.ldix nnn)) = nnn
  | .jpv0 nnn => fieldT (encode (.jpv0 nnn)) = 0xB#4 ∧ fieldNNN (encode (.jpv0 nnn)) = nnn
  | .rnd x nn => fieldT (encode (.rnd x nn)) = 0xC#4 ∧ fieldX (encode (.rnd x nn)) = x ∧
      fieldNN (encode (.rnd x nn)) = nn
  | .drw x y n => fieldT (encode (.drw x y n)) = 0xD#4 ∧ fieldX (encode (.drw x y n)) = x ∧
      fieldY (encode (.drw x y n)) = y ∧ fieldN (encode (.drw x y n)) = n
  | .skp x => fieldT (encode (.skp x)) = 0xE#4 ∧ fieldX (encode (.skp x)) = x ∧ subNibble (encode (.skp x)) = 0xE#4
  | .sknp x => fieldT (encode (.sknp x)) = 0xE#4 ∧ fieldX (encode (.sknp x)) = x ∧ subNibble (encode (.sknp x)) = 0x1#4
  | .ldvdt x => fieldT (encode (.ldvdt x)) = 0xF#4 ∧ fieldX (encode (.ldvdt x)) = x ∧ fieldNN (encode (.ldvdt x)) = 0x07#8
  | .wkey x => fieldT (encode (.wkey x)) = 0xF#4 ∧ fieldX (encode (.wkey x)) = x ∧ fieldNN (encode (.wkey x)) = 0x0A#8
  | .lddt x => fieldT (encode (.lddt x)) = 0xF#4 ∧ fieldX (encode (.lddt x)) = x ∧ fieldNN (encode (.lddt x)) = 0x15#8
  | .ldst x => fieldT (encode (.ldst x)) = 0xF#4 ∧ fieldX (encode (.ldst x)) = x ∧ fieldNN (encode (.ldst x)) = 0x18#8
  | .addix x => fieldT (encode (.addix x)) = 0xF#4 ∧ fieldX (encode (.addix x)) = x ∧ fieldNN (encode (.addix x)) = 0x1E#8
  | .font x => fieldT (encode (.font x)) = 0xF#4 ∧ fieldX (encode (.font x)) = x ∧ fieldNN (encode (.font x)) = 0x29#8
  | .bcd x => fieldT (encode (.bcd x)) = 0xF#4 ∧ fieldX (encode (.bcd x)) = x ∧ fieldNN (encode (.bcd x)) = 0x33#8
  | .dump x => fieldT (encode (.dump x)) = 0xF#4 ∧ fieldX (encode (.dump x)) = x ∧ fieldNN (encode (.dump x)) = 0x55#8
  | .load x => fieldT (encode (.load x)) = 0xF#4 ∧ fieldX (encode (.load x)) = x ∧ fieldNN (encode (.load x)) = 0x65#8
  | .nop op => encode (.nop op) = op

/-! ### One lemma per constructor -/

theorem cls : Statement .cls := by
  simp only [Statement]; decide

theorem ret : Statement .ret := by
  simp only [Statement]; decide

theorem jp (nnn : Imm12) : Statement (.jp nnn) := by
  have := nnn.isLt
  simp only [Statement, ← BitVec.toNat_inj, fieldT_toNat, fieldNNN_toNat, encode, BitVec.toNat_ofNat]
  omega

theorem call (nnn : Imm12) : Statement (.call nnn) := by
  have := nnn.isLt
  simp only [Statement, ← BitVec.toNat_inj, fieldT_toNat, fieldNNN_toNat, encode, BitVec.toNat_ofNat]
  omega

theorem se (x : Reg) (nn : Byte) : Statement (.se x nn) := by
  have := x.isLt; have := nn.isLt
  simp only [Statement, ← BitVec.toNat_inj, Fin.ext_iff, fieldT_toNat, fieldX_val, fieldNN_toNat, encode, BitVec.toNat_ofNat]
  omega

theorem sne (x : Reg) (nn : Byte) : Statement (.sne x nn) := by
  have := x.isLt; have := nn.isLt
  simp only [Statement, ← BitVec.toNat_inj, Fin.ext_iff, fieldT_toNat, fieldX_val, fieldNN_toNat, encode, BitVec.toNat_ofNat]
  omega

theorem ser (x y : Reg) : Statement (.ser x y) := by
  have := x.isLt; have := y.isLt
  simp only [Statement, ← BitVec.toNat_inj, Fin.ext_iff, fieldT_toNat, fieldX_val, fieldY_val, encode, BitVec.toNat_ofNat]
  omega

theorem ldi (x : Reg) (nn : Byte) : Statement (.ldi x nn) := by
  have := x.isLt; have := nn.isLt
  simp only [Statement, ← BitVec.toNat_inj, Fin.ext_iff, fieldT_toNat, fieldX_val, fieldNN_toNat, encode, BitVec.toNat_ofNat]
  omega

theorem addi (x : Reg) (nn : Byte) : Statement (.addi x nn) := by
  have := x.isLt; have := nn.isLt
  simp only [Statement, ← BitVec.toNat_inj, Fin.ext_iff, fieldT_toNat, fieldX_val, fieldNN_toNat, encode, BitVec.toNat_ofNat]
  omega

theorem mov (x y : Reg) : Statement (.mov x y) := by
  have := x.isLt; have := y.isLt
  simp only [Statement, ← BitVec.toNat_inj, Fin.ext_iff, fieldT_toNat, fieldX_val, fieldY_val, subNibble_toNat, encode, BitVec.toNat_ofNat]
  omega

theorem or (x y : Reg) : Statement (.or x y) := by
  have := x.isLt; have := y.isLt
  simp only [Statement, ← BitVec.toNat_inj, Fin.ext_iff, fieldT_toNat, fieldX_val, fieldY_val, subNibble_toNat, encode, BitVec.toNat_ofNat]
  omega

theorem and (x y : Reg) : Statement (.and x y) := by
  have := x.isLt; have := y.isLt
  simp only [Statement, ← BitVec.toNat_inj, Fin.ext_iff, fieldT_toNat, fieldX_val, fieldY_val, subNibble_toNat, encode, BitVec.toNat_ofNat]
  omega

theorem xor (x y : Reg) : Statement (.xor x y) := by
  have := x.isLt; have := y.isLt
  simp only [Statement, ← BitVec.toNat_inj, Fin.ext_iff, fieldT_toNat, fieldX_val, fieldY_val, subNibble_toNat, encode, BitVec.toNat_ofNat]
  omega

theorem add (x y : Reg) : Statement (.add x y) := by
  have := x.isLt; have := y.isLt
  simp only [Statement, ← BitVec.toNat_inj, Fin.ext_iff, fieldT_toNat, fieldX_val, fieldY_val, subNibble_toNat, encode, BitVec.toNat_ofNat]
  omega

theorem sub (x y : Reg) : Statement (.sub x y) := by
  have := x.isLt; have := y.isLt
  simp only [Statement, ← BitVec.toNat_inj, Fin.ext_iff, fieldT_toNat, fieldX_val, fieldY_val, subNibble_toNat, encode, BitVec.toNat_ofNat]
  omega

theorem shr (x y : Reg) : Statement (.shr x y) := by
  have := x.isLt; have := y.isLt
  simp only [Statement, ← BitVec.toNat_inj, Fin.ext_iff, fieldT_toNat, fieldX_val, fieldY_val, subNibble_toNat, encode, BitVec.toNat_ofNat]
  omega

theorem subn (x y : Reg) : Statement (.subn x y) := by
  have := x.isLt; have := y.isLt
  simp only [Statement, ← BitVec.toNat_inj, Fin.ext_iff, fieldT_toNat, fieldX_val, fieldY_val, subNibble_toNat, encode, BitVec.toNat_ofNat]
  omega

theorem shl (x y : Reg) : Statement (.shl x y) := by
  have := x.isLt; have := y.isLt
  simp only [Statement, ← BitVec.toNat_inj, Fin.ext_iff, fieldT_toNat, fieldX_val, fieldY_val, subNibble_toNat, encode, BitVec.toNat_ofNat]
  omega

theorem sner (x y : Reg) : Statement (.sner x y) := by
  have := x.isLt; have := y.isLt
  simp only [Statement, ← BitVec.toNat_inj, Fin.ext_iff, fieldT_toNat, fieldX_val, fieldY_val, encode, BitVec.toNat_ofNat]
  omega

theorem ldix (nnn : Imm12) : Statement (.ldix nnn) := by
  have := nnn.isLt
  simp only [Statement, ← BitVec.toNat_inj, fieldT_toNat, fieldNNN_toNat, encode, BitVec.toNat_ofNat]
  omega

theorem jpv0 (nnn : Imm12) : Statement (.jpv0 nnn) := by
  have := nnn.isLt
  simp only [Statement, ← BitVec.toNat_inj, fieldT_toNat, fieldNNN_toNat, encode, BitVec.toNat_ofNat]
  omega

theorem rnd (x : Reg) (nn : Byte) : Statement (.rnd x nn) := by
  have := x.isLt; have := nn.isLt
  simp only [Statement, ← BitVec.toNat_inj, Fin.ext_iff, fieldT_toNat, fieldX_val, fieldNN_toNat, encode, BitVec.toNat_ofNat]
  omega

theorem drw (x y : Reg) (n : RowCount) : Statement (.drw x y n) := by
  have := x.isLt; have := y.isLt; have := n.isLt
  simp only [Statement, ← BitVec.toNat_inj, Fin.ext_iff, fieldT_toNat, fieldX_val, fieldY_val,
    fieldN_val, encode, BitVec.toNat_ofNat]
  omega

theorem skp (x : Reg) : Statement (.skp x) := by
  have := x.isLt
  simp only [Statement, ← BitVec.toNat_inj, Fin.ext_iff, fieldT_toNat, fieldX_val, subNibble_toNat, encode, BitVec.toNat_ofNat]
  omega

theorem sknp (x : Reg) : Statement (.sknp x) := by
  have := x.isLt
  simp only [Statement, ← BitVec.toNat_inj, Fin.ext_iff, fieldT_toNat, fieldX_val, subNibble_toNat, encode, BitVec.toNat_ofNat]
  omega

theorem ldvdt (x : Reg) : Statement (.ldvdt x) := by
  have := x.isLt
  simp only [Statement, ← BitVec.toNat_inj, Fin.ext_iff, fieldT_toNat, fieldX_val, fieldNN_toNat, encode, BitVec.toNat_ofNat]
  omega

theorem wkey (x : Reg) : Statement (.wkey x) := by
  have := x.isLt
  simp only [Statement, ← BitVec.toNat_inj, Fin.ext_iff, fieldT_toNat, fieldX_val, fieldNN_toNat, encode, BitVec.toNat_ofNat]
  omega

theorem lddt (x : Reg) : Statement (.lddt x) := by
  have := x.isLt
  simp only [Statement, ← BitVec.toNat_inj, Fin.ext_iff, fieldT_toNat, fieldX_val, fieldNN_toNat, encode, BitVec.toNat_ofNat]
  omega

theorem ldst (x : Reg) : Statement (.ldst x) := by
  have := x.isLt
  simp only [Statement, ← BitVec.toNat_inj, Fin.ext_iff, fieldT_toNat, fieldX_val, fieldNN_toNat, encode, BitVec.toNat_ofNat]
  omega

theorem addix (x : Reg) : Statement (.addix x) := by
  have := x.isLt
  simp only [Statement, ← BitVec.toNat_inj, Fin.ext_iff, fieldT_toNat, fieldX_val, fieldNN_toNat, encode, BitVec.toNat_ofNat]
  omega

theorem font (x : Reg) : Statement (.font x) := by
  have := x.isLt
  simp only [Statement, ← BitVec.toNat_inj, Fin.ext_iff, fieldT_toNat, fieldX_val, fieldNN_toNat, encode, BitVec.toNat_ofNat]
  omega

theorem bcd (x : Reg) : Statement (.bcd x) := by
  have := x.isLt
  simp only [Statement, ← BitVec.toNat_inj, Fin.ext_iff, fieldT_toNat, fieldX_val, fieldNN_toNat, encode, BitVec.toNat_ofNat]
  omega

theorem dump (x : Reg) : Statement (.dump x) := by
  have := x.isLt
  simp only [Statement, ← BitVec.toNat_inj, Fin.ext_iff, fieldT_toNat, fieldX_val, fieldNN_toNat, encode, BitVec.toNat_ofNat]
  omega

theorem load (x : Reg) : Statement (.load x) := by
  have := x.isLt
  simp only [Statement, ← BitVec.toNat_inj, Fin.ext_iff, fieldT_toNat, fieldX_val, fieldNN_toNat, encode, BitVec.toNat_ofNat]
  omega

theorem nop (op : Word) : Statement (.nop op) := rfl

end Sys2Proof.Laws.EncodeFields
end

