-- ==== Sys2Proof/Laws/Step.lean ====
section
/-! SUPPORT. What a handler and a Step can answer, said once. -/

namespace Sys2Proof.Machine

/-- Every handler answers a next state (a raised fault is the next state with the latch set). -/
theorem exec_answers_next (i : Instr) (s : State) : ∃ t, exec i s = .next t := by
  cases i <;> exact ⟨_, rfl⟩

/-! ### Fetch -/

theorem fetchOpcode_eq_ok {s : State} {op : Word} :
    fetchOpcode s = .ok op ↔
      s.pc.toNat + 2 ≤ 4096 ∧ op = joinBytes (s.readByte s.pc.toNat) (s.readByte (s.pc.toNat + 1)) := by
  unfold fetchOpcode
  split <;> rename_i h
  · rw [rangeFault_eq_none] at h; simp [h, eq_comm]
  · rw [rangeFault_eq_some] at h; simp; omega

theorem fetchOpcode_eq_error {s : State} {f : Fault} :
    fetchOpcode s = .error f ↔
      4096 < s.pc.toNat + 2 ∧ f = .addressOutOfRange (if 4096 ≤ s.pc.toNat then s.pc.toNat else 4096) := by
  rw [← rangeFault_eq_some]
  unfold fetchOpcode
  split <;> simp_all

theorem nextInstr_eq_some {s : State} {i : Instr} :
    nextInstr s = some i ↔ ∃ op, fetchOpcode s = .ok op ∧ decodeOpcode op = i := by
  unfold nextInstr
  cases fetchOpcode s <;> simp

/-! ### The three ways a Step is not executed, and the one way it is -/

theorem step_of_fault {s : State} {f : Fault} (h : s.flt = some f) : step s = .fault f := by
  simp [step, h]

theorem step_of_notLoaded {s : State} (h : s.flt = none) (hl : s.loaded = false) : step s = .refused .stepBeforeLoad := by
  simp [step, h, hl]

theorem step_of_fetchFault {s : State} {f : Fault} (h : s.flt = none) (hl : s.loaded = true)
    (hf : fetchOpcode s = .error f) : step s = .next (s.raise f) := by
  simp [step, h, hl, hf]

/-- An admitted Step whose fetch is in range runs the handler of the decoded opcode and then ends. -/
theorem step_of_exec {s u : State} {op : Word} (h : s.flt = none) (hl : s.loaded = true)
    (hf : fetchOpcode s = .ok op) (hu : exec (decodeOpcode op) (s.enterHandler op) = .next u) :
    step s = .next (s.endStep u) := by
  simp [step, h, hl, hf, hu]

/-- Everything a Step can do when it answers a next state. -/
theorem step_cases {s t : State} (h : step s = .next t) :
    s.flt = none ∧ s.loaded = true ∧
    ((∃ f, fetchOpcode s = .error f ∧ t = s.raise f) ∨
     ∃ op u, fetchOpcode s = .ok op ∧ exec (decodeOpcode op) (s.enterHandler op) = .next u ∧
       ((u.flt = none ∧ t = u.tickTimers) ∨ ∃ f, u.flt = some f ∧ t = s.raise f)) := by
  cases hflt : s.flt with
  | some f => rw [step_of_fault hflt] at h; cases h
  | none =>
    cases hl : s.loaded with
    | false => rw [step_of_notLoaded hflt hl] at h; cases h
    | true =>
      refine ⟨rfl, rfl, ?_⟩
      cases hf : fetchOpcode s with
      | error f => rw [step_of_fetchFault hflt hl hf] at h; cases h; exact Or.inl ⟨f, rfl, rfl⟩
      | ok op =>
        obtain ⟨u, hu⟩ := exec_answers_next (decodeOpcode op) (s.enterHandler op)
        rw [step_of_exec hflt hl hf hu] at h; cases h
        refine Or.inr ⟨op, u, rfl, hu, ?_⟩
        cases huf : u.flt with
        | none => exact Or.inl ⟨rfl, State.endStep_of_none huf⟩
        | some f => exact Or.inr ⟨f, rfl, State.endStep_of_some huf⟩

/-- A Step that completes ran its handler without a fault. -/
theorem stepCompletes_cases {s t : State} (h : StepCompletes s t) :
    s.flt = none ∧ s.loaded = true ∧ ∃ op u, fetchOpcode s = .ok op ∧
      exec (decodeOpcode op) (s.enterHandler op) = .next u ∧ u.flt = none ∧ t = u.tickTimers := by
  obtain ⟨hs, ht⟩ := h
  obtain ⟨h1, h2, ⟨f, -, rfl⟩ | ⟨op, u, hf, hu, ⟨hn, rfl⟩ | ⟨f, -, rfl⟩⟩⟩ := step_cases hs
  · simp at ht
  · exact ⟨h1, h2, op, u, hf, hu, hn, rfl⟩
  · simp at ht

end Sys2Proof.Machine
end

