-- ==== Sys2Proof/Tests/Slice0.lean ====
section
/-! SUPPORT. Tests. Expected results are the spec's own: the vectors T<n> of 95_test_vectors.md, the encodings of
30_encoding.md, the reset values of 70_reset_and_hazards.md. In the second half, the witnesses: for each obligation
that has hypotheses, concrete states and operands that meet them. -/

namespace Sys2Proof.Tests

open Sys2Proof.Machine

/-! ### Helpers -/

/-- The start of a vector (95_test_vectors.md section 0): after Reset, the opcode at 0x200, loaded. -/
def at200 (w : Nat) : State := State.reset.withFetchWord 16 w

/-- The state, with registers set. -/
def withRegs (rs : List (Reg × Byte)) (s : State) : State := rs.foldl (fun s r => s.setReg r.1 r.2) s

/-- The state, with I set and bytes stored there. -/
def withBytes (i : Word) (bs : List Byte) (s : State) : State := { s with i := i, mem := s.mem.writeMany i.toNat bs }

/-- The state, with cells lit. -/
def withLit (ks : List Nat) (s : State) : State := { s with fb := ks.foldl Framebuffer.toggle s.fb }

/-- The step completes in a state of which the test holds. -/
def completes (s : State) (p : State → Bool) : Bool :=
  match step s with
  | .next t => t.flt.isNone && p t
  | .fault _ => false
  | .refused _ => false

/-- The step faults with `f`, and PC is where it was. -/
def faults (s : State) (f : Fault) : Bool :=
  match step s with
  | .next t => t.flt == some f && t.pc == s.pc
  | .fault _ => false
  | .refused _ => false

/-- The lit cells are exactly these (each listed once). -/
def litExactly (ks : List Nat) (t : State) : Bool := t.fb == ks.foldl Framebuffer.toggle Framebuffer.blank

/-! ### Well-formedness: each check refuses an ill-formed term (30_encoding.md R51) -/

theorem test_wellFormed_refuses_mapped_nop :
    (Instr.nop 0x00E0).wellFormed = false ∧ (Instr.nop 0x1ABC).wellFormed = false ∧
    (Instr.nop 0x812E).wellFormed = false ∧ (Instr.nop 0xE4F1).wellFormed = false ∧
    (Instr.nop 0xF065).wellFormed = false := by decide

theorem test_wellFormed_accepts_unmapped_nop :
    (Instr.nop 0x000F).wellFormed = true ∧ (Instr.nop 0x8008).wellFormed = true ∧
    (Instr.nop 0x8FFF).wellFormed = true ∧ (Instr.nop 0xE0A0).wellFormed = true ∧
    (Instr.nop 0xFF75).wellFormed = true := by decide

/-! ### Decoding: words written out bit by bit from 30_encoding.md R47 (T, X, Y, N in turn) -/

theorem test_decode_family_0 :
    decodeOpcode 0b0000000011100000#16 = .cls ∧ decodeOpcode 0b0000000011101110#16 = .ret ∧
    decodeOpcode 0b0000101010111110#16 = .ret ∧ decodeOpcode 0b0000000011100001#16 = .nop 0x00E1 := by decide

theorem test_decode_jumps_and_immediate_skips :
    decodeOpcode 0b0001101010111100#16 = .jp 0xABC ∧ decodeOpcode 0b0010111111111111#16 = .call 0xFFF ∧
    decodeOpcode 0b0011101000000111#16 = .se 10 0x07 ∧ decodeOpcode 0b0100010110000001#16 = .sne 5 0x81 ∧
    decodeOpcode 0b1011000100100011#16 = .jpv0 0x123 := by decide

theorem test_decode_register_skips :
    decodeOpcode 0b0101101010110000#16 = .ser 10 11 ∧ decodeOpcode 0b0101101010111111#16 = .ser 10 11 ∧
    decodeOpcode 0b1001101010110000#16 = .sner 10 11 ∧ decodeOpcode 0b1001101010110101#16 = .sner 10 11 := by decide

theorem test_decode_immediate_loads :
    decodeOpcode 0b0110001111110000#16 = .ldi 3 0xF0 ∧ decodeOpcode 0b0111110000000101#16 = .addi 12 5 ∧
    decodeOpcode 0b1010000100100011#16 = .ldix 0x123 ∧ decodeOpcode 0b1100001100001111#16 = .rnd 3 0x0F := by decide

theorem test_decode_family_8 :
    decodeOpcode 0b1000000100100000#16 = .mov 1 2 ∧ decodeOpcode 0b1000000100100001#16 = .or 1 2 ∧
    decodeOpcode 0b1000000100100010#16 = .and 1 2 ∧ decodeOpcode 0b1000000100100011#16 = .xor 1 2 ∧
    decodeOpcode 0b1000000100100100#16 = .add 1 2 ∧ decodeOpcode 0b1000000100100101#16 = .sub 1 2 ∧
    decodeOpcode 0b1000000100100110#16 = .shr 1 2 ∧ decodeOpcode 0b1000000100100111#16 = .subn 1 2 ∧
    decodeOpcode 0b1000000100101110#16 = .shl 1 2 ∧ decodeOpcode 0b1000101010111000#16 = .nop 0x8AB8 := by decide

theorem test_decode_draw :
    decodeOpcode 0b1101000100100101#16 = .drw 1 2 5 ∧ decodeOpcode 0b1101101010111111#16 = .drw 10 11 15 := by decide

theorem test_decode_family_E :
    decodeOpcode 0b1110010010011110#16 = .skp 4 ∧ decodeOpcode 0b1110010010100001#16 = .sknp 4 ∧
    decodeOpcode 0b1110010000001110#16 = .skp 4 ∧ decodeOpcode 0b1110010011110001#16 = .sknp 4 ∧
    decodeOpcode 0b1110000010011111#16 = .nop 0xE09F := by decide

theorem test_decode_family_F :
    decodeOpcode 0b1111001100000111#16 = .ldvdt 3 ∧ decodeOpcode 0b1111001100001010#16 = .wkey 3 ∧
    decodeOpcode 0b1111001100010101#16 = .lddt 3 ∧ decodeOpcode 0b1111001100011000#16 = .ldst 3 ∧
    decodeOpcode 0b1111001000011110#16 = .addix 2 ∧ decodeOpcode 0b1111000100101001#16 = .font 1 ∧
    decodeOpcode 0b1111001100110011#16 = .bcd 3 ∧ decodeOpcode 0b1111010101010101#16 = .dump 5 ∧
    decodeOpcode 0b1111111101100101#16 = .load 15 ∧ decodeOpcode 0b1111000001100110#16 = .nop 0xF066 := by decide

/-- R54's canonical words. -/
theorem test_encode_canonical :
    encode .cls = 0x00E0 ∧ encode .ret = 0x00EE ∧ encode (.ser 1 2) = 0x5120 ∧ encode (.shl 1 2) = 0x812E ∧
    encode (.skp 4) = 0xE49E ∧ encode (.sknp 4) = 0xE4A1 ∧ encode (.drw 1 2 5) = 0xD125 := by decide

/-- R36: the high byte is at the lower address. -/
theorem test_decode_bytes_big_endian : decode [0x65, 0x42, 0xFF] = .ok (.ldi 5 0x42, [0xFF]) := by rfl

theorem test_decodeTableWord : decodeTableWord 16 0x8124 = some (.add 1 2) ∧ decodeTableWord 32 0 = none := by decide

/-! ### Control flow (T80 to T96, T11, T12) -/

theorem test_ret_underflow_T83 : faults (at200 0x00EE) (.stackUnderflow 512) = true := by decide

theorem test_ret_T96 :
    completes { at200 0x0ABE with sp := 1, stack := (Vector.replicate 16 0).set 0 0x400 }
      (fun t => t.pc == 0x400 && t.sp == 0) = true := by decide

theorem test_jp_T80 : completes (at200 0x1ABC) (fun t => t.pc == 0xABC) = true := by decide

theorem test_call_T96 :
    completes { at200 0x2400 with sp := 1, stack := (Vector.replicate 16 0).set 0 0x222 }
      (fun t => t.pc == 0x400 && t.sp == 2 && t.stack[1] == 0x202 && t.stack[0] == 0x222) = true := by decide

theorem test_call_overflow_T82 : faults { at200 0x2200 with sp := 16 } (.stackOverflow 512) = true := by decide

theorem test_se_T11_T12 :
    completes (withRegs [(3, 7)] (at200 0x3307)) (fun t => t.pc == 0x204) = true ∧
    completes (withRegs [(3, 7)] (at200 0x3308)) (fun t => t.pc == 0x202) = true := by decide

theorem test_sne_T84 :
    completes (withRegs [(3, 7)] (at200 0x4307)) (fun t => t.pc == 0x202) = true ∧
    completes (withRegs [(3, 7)] (at200 0x4308)) (fun t => t.pc == 0x204) = true := by decide

theorem test_ser_T85_T87 :
    completes (withRegs [(1, 9), (2, 8)] (at200 0x5120)) (fun t => t.pc == 0x202) = true ∧
    completes (withRegs [(1, 9), (2, 9)] (at200 0x512F)) (fun t => t.pc == 0x204) = true := by decide

theorem test_sner_T86 :
    completes (withRegs [(3, 7)] (at200 0x9330)) (fun t => t.pc == 0x202) = true ∧
    completes (withRegs [(1, 9), (2, 8)] (at200 0x9120)) (fun t => t.pc == 0x204) = true := by decide

theorem test_jpv0_adds_V0_T88 :
    completes (withRegs [(0, 0x10), (3, 0x77)] (at200 0xB300)) (fun t => t.pc == 0x310) = true := by decide

theorem test_jpv0_beyond_memory_T89 :
    completes (withRegs [(0, 0xFF)] (at200 0xBFFF)) (fun t => t.pc == 0x10FE) = true := by decide

theorem test_fetch_beyond_memory_T89_T90 :
    faults { at200 0 with pc := 0x10FE } (.addressOutOfRange 4350) = true ∧
    faults { at200 0 with pc := 0xFFF } (.addressOutOfRange 4096) = true := by decide

theorem test_fetch_from_odd_address_T92 :
    completes { withBytes 0x300 [0xFF, 0x65, 0x42, 0xFF] (at200 0) with pc := 0x301 }
      (fun t => t.reg 5 == 0x42 && t.pc == 0x303) = true := by decide

theorem test_nop_T93 :
    completes { at200 0x8008 with dt := 3 } (fun t => t.pc == 0x202 && t.dt == 2) = true := by decide

theorem test_nop_T94 :
    completes { withRegs [(0, 0x11), (15, 0x22)] (at200 0xFF75) with i := 0x333, dt := 1 }
      (fun t => t.pc == 0x202 && t.dt == 0 && t.reg 0 == 0x11 && t.reg 15 == 0x22 && t.i == 0x333) = true := by
  decide

/-- T95, Step 2: a latched fault is answered again. -/
theorem test_latched_fault_T95 :
    step { at200 0x6105 with flt := some (.stackUnderflow 512) } = .fault (.stackUnderflow 512) := by rfl

/-! ### Arithmetic, logic, shifts, random (T1 to T6, T20 to T39) -/

theorem test_ldi_T39e : completes (at200 0x6FAB) (fun t => t.reg 15 == 0xAB) = true := by decide

theorem test_addi_wraps_T36 :
    completes (withRegs [(1, 0xFE), (15, 7)] (at200 0x7102)) (fun t => t.reg 1 == 0 && t.reg 15 == 7) = true := by
  decide

theorem test_mov_T39f :
    completes (withRegs [(1, 1), (2, 0x5A), (15, 3)] (at200 0x8120))
      (fun t => t.reg 1 == 0x5A && t.reg 2 == 0x5A && t.reg 15 == 3) = true := by decide

theorem test_or_T37a :
    completes (withRegs [(1, 0xF0), (2, 0x0F), (15, 1)] (at200 0x8121))
      (fun t => t.reg 1 == 0xFF && t.reg 15 == 1) = true := by decide

theorem test_and_T37b :
    completes (withRegs [(1, 0xF0), (2, 0x3C), (15, 1)] (at200 0x8122))
      (fun t => t.reg 1 == 0x30 && t.reg 15 == 1) = true := by decide

theorem test_xor_T37c :
    completes (withRegs [(1, 0xF0), (2, 0x3C), (15, 1)] (at200 0x8123))
      (fun t => t.reg 1 == 0xCC && t.reg 15 == 1) = true := by decide

theorem test_add_T1 :
    completes (withRegs [(1, 250), (2, 10)] (at200 0x8124))
      (fun t => t.reg 1 == 4 && t.reg 2 == 10 && t.reg 15 == 1) = true := by decide

theorem test_add_VF_is_destination_T23 :
    completes (withRegs [(15, 200), (1, 100)] (at200 0x8F14)) (fun t => t.reg 15 == 44 && t.reg 1 == 100) = true := by
  decide

theorem test_sub_T4 :
    completes (withRegs [(1, 3), (2, 10)] (at200 0x8125)) (fun t => t.reg 1 == 249 && t.reg 15 == 0) = true := by
  decide

theorem test_sub_equal_T24 :
    completes (withRegs [(1, 9), (2, 9), (15, 1)] (at200 0x8125))
      (fun t => t.reg 1 == 0 && t.reg 15 == 0) = true := by decide

theorem test_shr_T5 :
    completes (withRegs [(1, 0xAA), (2, 7), (15, 9)] (at200 0x8126))
      (fun t => t.reg 1 == 3 && t.reg 2 == 7 && t.reg 15 == 0) = true := by decide

theorem test_shr_VF_is_destination_T31 :
    completes (withRegs [(2, 8)] (at200 0x8F26)) (fun t => t.reg 15 == 1) = true := by decide

theorem test_subn_T27 :
    completes (withRegs [(1, 10), (2, 3)] (at200 0x8127)) (fun t => t.reg 1 == 249 && t.reg 15 == 1) = true := by
  decide

theorem test_subn_T28 :
    completes (withRegs [(1, 3), (2, 10), (15, 1)] (at200 0x8127))
      (fun t => t.reg 1 == 7 && t.reg 15 == 0) = true := by decide

theorem test_shl_T33 :
    completes (withRegs [(1, 0x33), (2, 0x80)] (at200 0x812E))
      (fun t => t.reg 1 == 0 && t.reg 2 == 0x80 && t.reg 15 == 1) = true := by decide

theorem test_shl_VF_is_destination_T34 :
    completes (withRegs [(2, 0xC1)] (at200 0x8F2E)) (fun t => t.reg 15 == 0x82) = true := by decide

theorem test_rnd_T38a :
    completes { at200 0xC30F with rndInputs := [0xB7, 1] }
      (fun t => t.reg 3 == 7 && t.rndInputs == [1] && t.draws == 1) = true := by decide

/-! ### Index register and memory (T7, T8, T40 to T52) -/

theorem test_ldix_T40 : completes (at200 0xAFFF) (fun t => t.i == 0x0FFF) = true := by decide

theorem test_addix_wraps_T43 :
    completes { withRegs [(2, 2)] (at200 0xF21E) with i := 0xFFFF } (fun t => t.i == 1 && t.reg 15 == 0) = true := by
  decide

theorem test_font_T8 : completes (withRegs [(3, 0x0A)] (at200 0xF329)) (fun t => t.i == 0x082) = true := by decide

theorem test_font_uses_whole_register_T45 :
    completes (withRegs [(3, 0xFF)] (at200 0xF329)) (fun t => t.i == 0x54B) = true := by decide

theorem test_bcd_T7 :
    completes { withRegs [(3, 157)] (at200 0xF333) with i := 0x300 }
      (fun t => t.mem.readMany 0x2FF 5 == [0, 1, 5, 7, 0] && t.i == 0x300) = true := by decide

theorem test_bcd_fault_T50 :
    faults { withRegs [(3, 123)] (at200 0xF333) with i := 0xFFE } (.addressOutOfRange 4096) = true := by decide

theorem test_dump_to_the_last_byte_T47 :
    completes { withRegs [(0, 1), (1, 2), (2, 3), (3, 4)] (at200 0xF255) with i := 0xFFD }
      (fun t => t.mem.readMany 0xFFC 4 == [0, 1, 2, 3] && t.i == 0x1000) = true := by decide

theorem test_dump_fault_T48 :
    faults { withRegs [(0, 1), (1, 2), (2, 3)] (at200 0xF255) with i := 0xFFE } (.addressOutOfRange 4096) = true := by
  decide

theorem test_load_all_T49 :
    completes (withBytes 0x300 [100, 101, 102, 103, 104, 105, 106, 107, 108, 109, 110, 111, 112, 113, 114, 115]
      (at200 0xFF65)) (fun t => t.reg 0 == 100 && t.reg 7 == 107 && t.reg 15 == 115 && t.i == 0x310) = true := by
  decide

theorem test_load_fault_T51_T52 :
    faults { at200 0xF165 with i := 0xFFF } (.addressOutOfRange 4096) = true ∧
    faults { at200 0xF065 with i := 0x10FE } (.addressOutOfRange 4350) = true := by decide

/-! ### Display (T9, T56 to T69) -/

theorem test_cls_T56 :
    completes (withRegs [(15, 1)] (withLit [0, 2047] (at200 0x00E0)))
      (fun t => litExactly [] t && t.reg 15 == 1) = true := by decide

theorem test_drw_collides_T59 :
    completes (withLit [1, 2] (withBytes 0x300 [0xC0] (at200 0xD011)))
      (fun t => litExactly [0, 2] t && t.reg 15 == 1) = true := by decide

theorem test_drw_runs_on_into_the_next_row_T61 :
    completes (withRegs [(0, 62)] (withBytes 0x300 [0xF0] (at200 0xD011)))
      (fun t => litExactly [62, 63, 64, 65] t && t.reg 15 == 0) = true := by decide

/-- T62 and T69a: the display fault, and the address fault before it. -/
theorem test_drw_faults_T62_T69a :
    faults (withRegs [(1, 31)] (withBytes 0x300 [0x80, 0x80] (at200 0xD012))) (.displayOutOfRange 2048) = true ∧
    faults (withRegs [(1, 31)] (withBytes 0xFFF [0x80] (at200 0xD012))) (.addressOutOfRange 4096) = true := by
  decide

/-- T63 to T65: the other edge modes on the sprites of T61 and T62. -/
theorem test_drawSprite_edge_modes :
    litExactly [0, 1, 62, 63] (drawSprite .wrap 0 1 1 (withRegs [(0, 62)] (withBytes 0x300 [0xF0] (at200 0)))) = true ∧
    litExactly [0, 1984] (drawSprite .wrap 0 1 2 (withRegs [(1, 31)] (withBytes 0x300 [0x80, 0x80] (at200 0)))) = true ∧
    litExactly [62, 63] (drawSprite .clip 0 1 1 (withRegs [(0, 62)] (withBytes 0x300 [0xF0] (at200 0)))) = true ∧
    litExactly [1984] (drawSprite .clip 0 1 2 (withRegs [(1, 31)] (withBytes 0x300 [0x80, 0x80] (at200 0)))) = true ∧
    (drawSprite .fault 0 1 1 (withRegs [(0, 62)] (withBytes 0x300 [0xF0] (at200 0)))).flt =
      some (.displayOutOfRange 64) := by decide

/-! ### Timers and keypad (T10, T70 to T79) -/

theorem test_lddt_T70 :
    completes (withRegs [(3, 5)] (at200 0xF315)) (fun t => t.dt == 4 && t.st == 0) = true := by decide

theorem test_ldvdt_T72 :
    completes { at200 0xF307 with dt := 10 } (fun t => t.reg 3 == 10 && t.dt == 9) = true := by decide

theorem test_ldst_T73 :
    completes { withRegs [(3, 1)] (at200 0xF318) with dt := 1 } (fun t => t.st == 0 && t.dt == 0) = true := by decide

theorem test_skp_T74 :
    completes { withRegs [(4, 5)] (at200 0xE49E) with keyInputs := [0x0020] } (fun t => t.pc == 0x204) = true ∧
    completes { withRegs [(4, 5)] (at200 0xE49E) with keyInputs := [0xFFDF] } (fun t => t.pc == 0x202) = true := by
  decide

theorem test_skp_fault_T76 :
    faults { withRegs [(4, 16)] (at200 0xE49E) with dt := 3 } (.keyIndexOutOfRange 16) = true := by decide

theorem test_sknp_T75 :
    completes { withRegs [(4, 5)] (at200 0xE4A1) with keyInputs := [0] } (fun t => t.pc == 0x204) = true ∧
    completes { withRegs [(4, 5)] (at200 0xE4A1) with keyInputs := [0x0020] } (fun t => t.pc == 0x202) = true := by
  decide

theorem test_sknp_fault_T76 : faults (withRegs [(4, 0x15)] (at200 0xE4A1)) (.keyIndexOutOfRange 21) = true := by
  decide

theorem test_wkey_lowest_key_T77 :
    completes { withRegs [(3, 0xEE)] (at200 0xF30A) with keyInputs := [0x8208] }
      (fun t => t.reg 3 == 3 && t.pc == 0x202) = true := by decide

theorem test_wkey_waits_T78 :
    completes { withRegs [(3, 0xEE)] (at200 0xF30A) with keyInputs := [0], dt := 2, st := 5 }
      (fun t => t.reg 3 == 0xEE && t.pc == 0x200 && t.dt == 1 && t.st == 4) = true := by decide

/-! ### Reset and load (T13, T97 to T99) -/

theorem test_reset_font_T97 :
    State.reset.mem.readMany 0x04F 6 = [0, 0xF0, 0x90, 0x90, 0x90, 0xF0] ∧
    State.reset.mem.readMany 0x09B 6 = [0xF0, 0x80, 0xF0, 0x80, 0x80, 0] := by decide

/-- The sum of the font bytes (T97). -/
theorem test_font_sum_T97 : (Config.fontData.map BitVec.toNat).sum = 13008 ∧ Config.fontData.length = 80 := by decide

theorem test_hostReset_T98 :
    hostReset { withLit [3] (withRegs [(1, 7)] (withBytes 0x300 [9] (at200 0))) with
      flt := some (.stackUnderflow 512) } = State.reset := by decide

theorem test_loadProgram_too_long_T13 :
    loadProgram (List.replicate 3585 0xFF) State.reset = .next (State.reset.raise (.romLoadError 3585)) := by
  have h : programCapacity < (List.replicate 3585 (0xFF : Byte)).length := by
    rw [List.length_replicate]; decide
  rw [loadProgram, if_pos h, List.length_replicate]
  rfl

/-- T99 (b): a program of three bytes; the first Step. -/
theorem test_loadProgram_T99b :
    (match loadProgram [0x61, 0x07, 0x62] State.reset with
      | .next s => completes s (fun t => t.reg 1 == 7 && t.pc == 0x202 && fetchOpcode t matches .ok 0x6200)
      | .fault _ => false
      | .refused _ => false) = true := by decide

/-! ### Witnesses: states and operands that meet the hypotheses of the obligations -/

/-- A state with a boundary PC: the last address at which a fetch is in range. -/
def atLastFetch (w : Nat) : State := { State.reset with pc := 0xFFE }.withFetchWord 16 w

/-- Every set bit of the sprite, when each (r, c) is checked. -/
theorem forall_setBit {s : State} {x y : Reg} {n : RowCount} {P : Nat → Prop}
    (h : ∀ r, r < n.val → ∀ c, c < 8 → spriteBit s r c = true → P (64 * drawRow s y r + drawColumn s x c)) :
    ∀ k, SetBitAt s x y n k → P k := by
  rintro k ⟨r, c, hr, hc, hb, rfl⟩
  exact h r hr c hc hb

/-- DecodeOfEncodeIsTheInstruction: operands at the ends of their ranges. -/
theorem witness_wellFormed :
    (Instr.drw 15 0 15).wellFormed = true ∧ (Instr.jp 0xFFF).wellFormed = true ∧
    (Instr.addi 15 0xFF).wellFormed = true ∧ (Instr.nop 0xF0FF).wellFormed = true ∧
    (Instr.nop 0x0001).wellFormed = true := by decide

/-- IgnoredBitsDoNotMatter, each clause. -/
theorem witness_ignored_bits :
    (fieldT 0x00E0 = fieldT 0x0FF0 ∧ fieldT 0x00E0 = 0x0#4 ∧ subNibble 0x00E0 = subNibble 0x0FF0 ∧
      unmapped 0x00E0 = false) ∧
    (fieldT 0xE40E = fieldT 0xE4FE ∧ fieldT 0xE40E = 0xE#4 ∧ fieldX 0xE40E = fieldX 0xE4FE ∧
      subNibble 0xE40E = subNibble 0xE4FE ∧ unmapped 0xE40E = false) ∧
    (fieldT 0x5120 = fieldT 0x512F ∧ fieldT 0x5120 = 0x5#4 ∧ fieldX 0x5120 = fieldX 0x512F ∧
      fieldY 0x5120 = fieldY 0x512F) ∧
    (fieldT 0x9AB0 = fieldT 0x9AB5 ∧ fieldT 0x9AB0 = 0x9#4 ∧ fieldX 0x9AB0 = fieldX 0x9AB5 ∧
      fieldY 0x9AB0 = fieldY 0x9AB5) := by decide

/-- The encodings named in the instruction statements: each mask has a word. -/
theorem witness_masks :
    (0x1ABC#16 &&& 0xF000#16 = 0x1000#16 ∧ 0x2FFF#16 &&& 0xF000#16 = 0x2000#16 ∧
      0x3A00#16 &&& 0xF000#16 = 0x3000#16 ∧ 0x4A00#16 &&& 0xF000#16 = 0x4000#16 ∧
      0x5ABF#16 &&& 0xF000#16 = 0x5000#16 ∧ 0x6000#16 &&& 0xF000#16 = 0x6000#16 ∧
      0x7FFF#16 &&& 0xF000#16 = 0x7000#16 ∧ 0x9AB5#16 &&& 0xF000#16 = 0x9000#16 ∧
      0xA123#16 &&& 0xF000#16 = 0xA000#16 ∧ 0xB123#16 &&& 0xF000#16 = 0xB000#16 ∧
      0xC0FF#16 &&& 0xF000#16 = 0xC000#16) ∧
    (0x0FF0#16 &&& 0xF00F#16 = 0x0000#16 ∧ 0x0ABE#16 &&& 0xF00F#16 = 0x000E#16 ∧
      0x8AB0#16 &&& 0xF00F#16 = 0x8000#16 ∧ 0x8121#16 &&& 0xF00F#16 = 0x8001#16 ∧
      0x8122#16 &&& 0xF00F#16 = 0x8002#16 ∧ 0x8123#16 &&& 0xF00F#16 = 0x8003#16 ∧
      0x8124#16 &&& 0xF00F#16 = 0x8004#16 ∧ 0x8125#16 &&& 0xF00F#16 = 0x8005#16 ∧
      0x8126#16 &&& 0xF00F#16 = 0x8006#16 ∧ 0x8AB7#16 &&& 0xF00F#16 = 0x8007#16 ∧
      0x8ABE#16 &&& 0xF00F#16 = 0x800E#16 ∧ 0xE0EE#16 &&& 0xF00F#16 = 0xE00E#16 ∧
      0xE0A1#16 &&& 0xF00F#16 = 0xE001#16) ∧
    (0xF307#16 &&& 0xF0FF#16 = 0xF007#16 ∧ 0xFF0A#16 &&& 0xF0FF#16 = 0xF00A#16 ∧
      0xF315#16 &&& 0xF0FF#16 = 0xF015#16 ∧ 0xF318#16 &&& 0xF0FF#16 = 0xF018#16 ∧
      0xF21E#16 &&& 0xF0FF#16 = 0xF01E#16 ∧ 0xF129#16 &&& 0xF0FF#16 = 0xF029#16 ∧
      0xF333#16 &&& 0xF0FF#16 = 0xF033#16 ∧ 0xF555#16 &&& 0xF0FF#16 = 0xF055#16 ∧
      0xFF65#16 &&& 0xF0FF#16 = 0xF065#16) := by decide

/-- StepRunsTheDecodedInstruction: a latched fault; not loaded; a fetch out of range at the first such PC; a fetch at
the last PC in range, with a handler that raises no fault and with one that does. -/
theorem witness_step_admission :
    { at200 0 with flt := some (.stackUnderflow 512) }.flt = some (.stackUnderflow 512) ∧
    (State.reset.flt = none ∧ State.reset.loaded = false) ∧
    (Admitted { at200 0 with pc := 4095 } ∧ 4094 < { at200 0 with pc := 4095 }.pc.toNat) :=
  ⟨rfl, ⟨rfl, rfl⟩, ⟨rfl, rfl⟩, by decide⟩

theorem witness_step_decodes :
    (Admitted (atLastFetch 0x6107) ∧ (atLastFetch 0x6107).pc.toNat = 4094 ∧
      decode [(atLastFetch 0x6107).readByte 4094, (atLastFetch 0x6107).readByte 4095] = .ok (.ldi 1 7, [])) ∧
    (Admitted (atLastFetch 0x00EE) ∧ (atLastFetch 0x00EE).pc.toNat = 4094 ∧
      decode [(atLastFetch 0x00EE).readByte 4094, (atLastFetch 0x00EE).readByte 4095] = .ok (.ret, []) ∧
      ∃ u, exec .ret ((atLastFetch 0x00EE).enterHandler 0x00EE) = .next u ∧ u.flt = some (.stackUnderflow 4094)) :=
  ⟨⟨⟨rfl, rfl⟩, by decide, rfl⟩, ⟨rfl, rfl⟩, by decide, rfl, _, rfl, rfl⟩

/-- FaultingStepChangesOnlyTheLatch, FaultsHaveTheirCauses, TimersCountDownAfterTheHandler: a Step that faults, for
each cause a Step can raise. -/
theorem witness_step_faults :
    (∃ t, StepFaults { at200 0 with pc := 4095 } t (.addressOutOfRange 4096)) ∧
    (∃ t, StepFaults { at200 0xF033 with i := 4094 } t (.addressOutOfRange 4096)) ∧
    (∃ t, StepFaults { at200 0x2200 with sp := 16 } t (.stackOverflow 512)) ∧
    (∃ t, StepFaults (at200 0x00EE) t (.stackUnderflow 512)) ∧
    (∃ t, StepFaults (withRegs [(4, 16)] (at200 0xE49E)) t (.keyIndexOutOfRange 16)) :=
  ⟨⟨_, rfl, rfl⟩, ⟨_, rfl, rfl⟩, ⟨_, rfl, rfl⟩, ⟨_, rfl, rfl⟩, ⟨_, rfl, rfl⟩⟩

theorem witness_step_faults_display :
    ∃ t, StepFaults (withRegs [(1, 31)] (withBytes 0x300 [0x80, 0x80] (at200 0xD012))) t (.displayOutOfRange 2048) :=
  ⟨_, rfl, rfl⟩

/-- TimersCountDownAfterTheHandler, ProgramCounterAfterEveryStep, FootprintOfEveryStep, EveryAdmittedStepEnds,
OpcodeIsNeverReadBetweenSteps: a Step that completes, at the last PC in range, and the three timer instructions. -/
theorem witness_step_completes :
    (Admitted (atLastFetch 0x6107) ∧ (∃ t, StepCompletes (atLastFetch 0x6107) t) ∧
      nextInstr (atLastFetch 0x6107) = some (.ldi 1 7)) ∧
    ((∃ t, StepCompletes (at200 0xF315) t) ∧ nextInstr (at200 0xF315) = some (.lddt 3)) ∧
    ((∃ t, StepCompletes (at200 0xF318) t) ∧ nextInstr (at200 0xF318) = some (.ldst 3)) ∧
    ((∃ t, StepCompletes { at200 0xF307 with dt := 1 } t) ∧
      nextInstr { at200 0xF307 with dt := 1 } = some (.ldvdt 3)) :=
  ⟨⟨⟨rfl, rfl⟩, ⟨_, rfl, rfl⟩, rfl⟩, ⟨⟨_, rfl, rfl⟩, rfl⟩, ⟨⟨_, rfl, rfl⟩, rfl⟩, ⟨⟨_, rfl, rfl⟩, rfl⟩⟩

/-- FootprintOfEveryStep, the premises of its clauses: a byte, a cell, the stack changed. -/
theorem witness_footprint_clauses :
    (∃ t, StepCompletes { withRegs [(3, 157)] (at200 0xF333) with i := 0x300 } t ∧
      t.readByte 0x300 ≠ { withRegs [(3, 157)] (at200 0xF333) with i := 0x300 }.readByte 0x300) ∧
    (∃ t, StepCompletes (withLit [2047] (at200 0x00E0)) t ∧
      t.fb.cell 2047 ≠ (withLit [2047] (at200 0x00E0)).fb.cell 2047) ∧
    (∃ t, StepCompletes (at200 0x2300) t ∧ t.stack ≠ (at200 0x2300).stack) :=
  ⟨⟨_, ⟨rfl, rfl⟩, by decide⟩, ⟨_, ⟨rfl, rfl⟩, by decide⟩, ⟨_, ⟨rfl, rfl⟩, by decide⟩⟩

/-- EveryStepKeepsTheInvariant, SoundTimerIsNeverRead: the highest PC that the invariant allows, reached by a Step. -/
theorem witness_invariant :
    MachineInv (withRegs [(0, 0xFF)] (at200 0xBFFF)) ∧
    ∃ t, step (withRegs [(0, 0xFF)] (at200 0xBFFF)) = .next t ∧ t.pc.toNat = 0x10FE :=
  ⟨⟨by decide, by decide, by decide, by decide⟩, _, rfl, by decide⟩

/-- EveryHostOperationKeepsTheInvariant: a state in each row of the lifecycle table, the shortest failed load among
them. -/
theorem witness_host_operation :
    MachineInv State.reset ∧ MachineInv (at200 0xBFFF) ∧
    MachineInv { State.reset with flt := some (.romLoadError 3585) } ∧
    MachineInv { at200 0x00EE with flt := some (.stackUnderflow 512) } :=
  ⟨⟨by decide, by decide, by decide, by decide⟩, ⟨by decide, by decide, by decide, by decide⟩,
    ⟨by decide, by decide, by decide, by decide⟩, ⟨by decide, by decide, by decide, by decide⟩⟩

/-- KeypadIsReadByThreeInstructions. -/
theorem witness_keypad_not_read :
    (∀ x, Instr.cls ≠ .skp x ∧ Instr.cls ≠ .sknp x ∧ Instr.cls ≠ .wkey x) ∧ ∃ t, exec .cls State.reset = .next t :=
  ⟨fun _ => ⟨nofun, nofun, nofun⟩, _, rfl⟩

/-- StaleStackEntriesAreNeverRead: a RET of one valid entry, with another value in an entry above it. -/
theorem witness_stale_entries :
    (∀ j : Fin 16, j.val < { at200 0x00EE with sp := 1 }.sp.val →
      ((Vector.replicate 16 (0 : Word)).set 1 7)[j.val] = { at200 0x00EE with sp := 1 }.stack[j.val]) ∧
    ∃ t, step { at200 0x00EE with sp := 1 } = .next t :=
  ⟨by decide, _, rfl⟩

/-- CallPushesTheAdvancedPc, ReturnPopsTheStack, ReturnResumesAfterTheCall: the depths at which the clauses meet. -/
theorem witness_stack_depths :
    { State.reset with sp := 15 }.sp.val ≠ 16 ∧ { State.reset with sp := 16 }.sp.val = 16 ∧
    { State.reset with sp := 1 }.sp.val ≠ 0 ∧ State.reset.sp.val = 0 := by decide

theorem witness_return_after_call :
    { State.reset with sp := 15 }.sp.val ≠ 16 ∧ ∃ u w : State, exec (.call 0x300) { State.reset with sp := 15 } = .next u ∧
      w.stack = u.stack ∧ w.sp = u.sp :=
  ⟨by decide, _, _, rfl, rfl, rfl⟩

/-- SkipsAddTwoOnTheirCondition: registers equal and unequal to the operand. -/
theorem witness_skip_conditions :
    ((withRegs [(15, 7)] State.reset).reg 15).toNat = (7 : Byte).toNat ∧
    ((withRegs [(15, 7)] State.reset).reg 15).toNat ≠ (8 : Byte).toNat ∧
    (State.reset.reg 0).toNat = (State.reset.reg 15).toNat ∧
    ((withRegs [(15, 7)] State.reset).reg 0).toNat ≠ ((withRegs [(15, 7)] State.reset).reg 15).toNat := by decide

/-- UnmappedOpcodesDoNothing. -/
theorem witness_unmapped :
    Admitted (at200 0xF0FF) ∧ fetchOpcode (at200 0xF0FF) = .ok 0xF0FF ∧ unmapped 0xF0FF = true :=
  ⟨⟨rfl, rfl⟩, rfl, by decide⟩

/-- The flag statements and SameRegisterOperands: a destination other than VF, another register, both edges of each
flag. -/
theorem witness_flag_edges :
    (14 : Reg) ≠ 15 ∧ (0 : Reg) ≠ 14 ∧
    255 < ((withRegs [(1, 200), (2, 56)] State.reset).reg 1).toNat + ((withRegs [(1, 200), (2, 56)] State.reset).reg 2).toNat ∧
    ¬ 255 < ((withRegs [(1, 200), (2, 55)] State.reset).reg 1).toNat + ((withRegs [(1, 200), (2, 55)] State.reset).reg 2).toNat := by
  decide

/-- RandomIsTheMaskedDraw: a supplied byte, a masked bit. -/
theorem witness_random :
    { State.reset with rndInputs := [0xB7] }.rndInputs = 0xB7 :: [] ∧ (0x0F : Byte).getLsbD 4 = false := by decide

/-- BcdStoresThreeDigits: the last I in range and the first out of range, and I beyond memory. -/
theorem witness_bcd_ranges :
    ({ State.reset with i := 4093 }.mem.wf ∧ { State.reset with i := 4093 }.i.toNat + 2 = 4095) ∧
    { State.reset with i := 4094 }.i.toNat + 2 = 4096 ∧ 4096 ≤ { State.reset with i := 0xFFFF }.i.toNat := by decide

/-- DumpStoresTheFirstRegisters, LoadFillsTheFirstRegisters: the last I in range for X = 15 and X = 0, the first out of
range, a register above X. -/
theorem witness_dump_load_ranges :
    ({ State.reset with i := 4080 }.mem.wf ∧ { State.reset with i := 4080 }.i.toNat + (15 : Reg).val = 4095) ∧
    { State.reset with i := 4095 }.i.toNat + (0 : Reg).val = 4095 ∧
    { State.reset with i := 4081 }.i.toNat + (15 : Reg).val = 4096 ∧ (5 : Reg) ≤ 5 ∧ (5 : Reg) < 6 := by decide

/-- DumpThenLoadGivesTheRegistersBack. -/
theorem witness_dump_then_load :
    { State.reset with i := 4080 }.mem.wf ∧ { State.reset with i := 4080 }.i.toNat + (15 : Reg).val ≤ 4095 ∧
    ∃ u w : State, exec (.dump 15) { State.reset with i := 4080 } = .next u ∧
      (∀ a, w.readByte a = u.readByte a) ∧ w.i = { State.reset with i := 4080 }.i :=
  ⟨by decide, by decide, _, { State.reset with i := 4080, mem := _ }, rfl, fun _ => rfl, rfl⟩

/-- StoresReachTheNextFetch. -/
theorem witness_stored_opcode :
    { State.reset with i := 4080 }.mem.wf ∧ { State.reset with i := 4080 }.i.toNat + (15 : Reg).val ≤ 4095 ∧
    (∃ t, exec (.dump 15) { State.reset with i := 4080 } = .next t) ∧ (15 : Reg).val = (14 : Reg).val + 1 ∧
    (15 : Reg) ≤ 15 ∧ (4094 : Word).toNat = { State.reset with i := 4080 }.i.toNat + (14 : Reg).val :=
  ⟨by decide, by decide, ⟨_, rfl⟩, by decide, by decide, by decide⟩

/-- ZeroMemoryExecutesAsClear. -/
theorem witness_zero_memory :
    Admitted { at200 0 with pc := 4094 } ∧ { at200 0 with pc := 4094 }.pc.toNat = 4094 ∧
    { at200 0 with pc := 4094 }.readByte 4094 = 0 ∧ { at200 0 with pc := 4094 }.readByte 4095 = 0 :=
  ⟨⟨rfl, rfl⟩, by decide, by decide, by decide⟩

/-- DrawTogglesExactlyTheSetBits: a sprite at the end of memory whose set bits are the last two cells, drawn on a dark
and on a lit display; a row count of 0 with I beyond memory. -/
theorem witness_draw :
    SpriteInMemory (withRegs [(0, 62), (1, 31)] (withBytes 4095 [0xC0] State.reset)) 1 ∧
    (∀ k, SetBitAt (withRegs [(0, 62), (1, 31)] (withBytes 4095 [0xC0] State.reset)) 0 1 1 k → k < 2048) ∧
    SetBitAt (withRegs [(0, 62), (1, 31)] (withBytes 4095 [0xC0] State.reset)) 0 1 1 2047 ∧
    (∀ k, SetBitAt (withRegs [(0, 62), (1, 31)] (withBytes 4095 [0xC0] State.reset)) 0 1 1 k →
      (withRegs [(0, 62), (1, 31)] (withBytes 4095 [0xC0] State.reset)).fb.cell k = false) ∧
    SpriteInMemory { State.reset with i := 0xFFFF } 0 :=
  ⟨Or.inr (by decide), forall_setBit (by decide), ⟨0, 1, by decide, by decide, by decide, by decide⟩,
    forall_setBit (by decide), Or.inl rfl⟩

theorem witness_draw_collision :
    SpriteInMemory (withLit [2047] (withRegs [(0, 62), (1, 31)] (withBytes 4095 [0xC0] State.reset))) 1 ∧
    (∀ k, SetBitAt (withLit [2047] (withRegs [(0, 62), (1, 31)] (withBytes 4095 [0xC0] State.reset))) 0 1 1 k →
      k < 2048) ∧
    ∃ k, SetBitAt (withLit [2047] (withRegs [(0, 62), (1, 31)] (withBytes 4095 [0xC0] State.reset))) 0 1 1 k ∧
      (withLit [2047] (withRegs [(0, 62), (1, 31)] (withBytes 4095 [0xC0] State.reset))).fb.cell k = true :=
  ⟨Or.inr (by decide), forall_setBit (by decide), 2047, ⟨0, 1, by decide, by decide, by decide, by decide⟩, by decide⟩

/-- DrawFaultsInOrder: a sprite one row too long for memory; a first set bit just beyond the last cell. -/
theorem witness_draw_faults :
    ¬ SpriteInMemory { State.reset with i := 4095 } 2 ∧
    (SpriteInMemory (withRegs [(0, 62), (1, 31)] (withBytes 0x300 [0xF0] State.reset)) 1 ∧
      SetBitAt (withRegs [(0, 62), (1, 31)] (withBytes 0x300 [0xF0] State.reset)) 0 1 1 2048 ∧
      ∀ k, SetBitAt (withRegs [(0, 62), (1, 31)] (withBytes 0x300 [0xF0] State.reset)) 0 1 1 k → 2048 ≤ k →
        2048 ≤ k) :=
  ⟨by unfold SpriteInMemory; decide,
    Or.inr (by decide), ⟨0, 2, by decide, by decide, by decide, by decide⟩, fun _ _ h => h⟩

/-- DrawTwiceGivesTheDisplayBack: the state after the first draw, on a dark display and on one where the only cell of
the sprite is lit. -/
theorem witness_draw_twice :
    SpriteInMemory (withBytes 0x300 [0x80] State.reset) 1 ∧
    (∀ k, SetBitAt (withBytes 0x300 [0x80] State.reset) 0 1 1 k → k < 2048) ∧
    (∃ u w : State, exec (.drw 0 1 1) (withBytes 0x300 [0x80] State.reset) = .next u ∧ w.fb = u.fb ∧
      w.i = (withBytes 0x300 [0x80] State.reset).i ∧
      (∀ a, w.readByte a = (withBytes 0x300 [0x80] State.reset).readByte a) ∧
      w.reg 0 = (withBytes 0x300 [0x80] State.reset).reg 0 ∧ w.reg 1 = (withBytes 0x300 [0x80] State.reset).reg 1) ∧
    (∃ k, SetBitAt (withBytes 0x300 [0x80] State.reset) 0 1 1 k ∧
      (withBytes 0x300 [0x80] State.reset).fb.cell k = false) ∧
    (∀ k, SetBitAt (withLit [0] (withBytes 0x300 [0x80] State.reset)) 0 1 1 k →
      (withLit [0] (withBytes 0x300 [0x80] State.reset)).fb.cell k = true) :=
  ⟨Or.inr (by decide), forall_setBit (by decide),
    ⟨_, { withBytes 0x300 [0x80] State.reset with fb := _ }, rfl, rfl, rfl, fun _ => rfl, rfl, rfl⟩,
    ⟨0, ⟨0, 0, by decide, by decide, by decide, by decide⟩, by decide⟩, forall_setBit (by decide)⟩

/-- EdgeModesDifferOnlyOffTheGrid: set bits up to the last column and row; a set bit just off the grid. -/
theorem witness_edge_modes :
    ((withRegs [(0, 62), (1, 31)] (withBytes 0x300 [0xC0] State.reset)).flt = none ∧
      SpriteInMemory (withRegs [(0, 62), (1, 31)] (withBytes 0x300 [0xC0] State.reset)) 1 ∧
      ∀ r c, r < (1 : RowCount).val → c < 8 →
        spriteBit (withRegs [(0, 62), (1, 31)] (withBytes 0x300 [0xC0] State.reset)) r c = true →
        drawColumn (withRegs [(0, 62), (1, 31)] (withBytes 0x300 [0xC0] State.reset)) 0 c < 64 ∧
        drawRow (withRegs [(0, 62), (1, 31)] (withBytes 0x300 [0xC0] State.reset)) 1 r < 32) ∧
    (∃ r c, r < (1 : RowCount).val ∧ c < 8 ∧
      spriteBit (withRegs [(0, 62)] (withBytes 0x300 [0x20] State.reset)) r c = true ∧
      (64 ≤ drawColumn (withRegs [(0, 62)] (withBytes 0x300 [0x20] State.reset)) 0 c ∨
        32 ≤ drawRow (withRegs [(0, 62)] (withBytes 0x300 [0x20] State.reset)) 1 r)) := by
  refine ⟨⟨rfl, Or.inr (by decide), ?_⟩, 0, 2, by decide, by decide, by decide, Or.inl (by decide)⟩
  have h : ∀ r, r < (1 : RowCount).val → ∀ c, c < 8 →
      spriteBit (withRegs [(0, 62), (1, 31)] (withBytes 0x300 [0xC0] State.reset)) r c = true →
      drawColumn (withRegs [(0, 62), (1, 31)] (withBytes 0x300 [0xC0] State.reset)) 0 c < 64 ∧
      drawRow (withRegs [(0, 62), (1, 31)] (withBytes 0x300 [0xC0] State.reset)) 1 r < 32 := by decide
  exact fun r c hr hc => h r hr c hc

/-- KeySkipsFollowTheNamedKey: the largest key and the first value that is none. -/
theorem witness_key_values :
    ((withRegs [(15, 15)] State.reset).reg 15).toNat ≤ 15 ∧
    15 < ((withRegs [(15, 16)] State.reset).reg 15).toNat := by decide

/-- WaitTakesTheLowestPressedKey, the handler: only key 15 pressed; none pressed. -/
theorem witness_wait :
    (15 < 16 ∧ { State.reset with key := 0x8000 }.key.getLsbD 15 = true ∧
      ∀ j < 15, { State.reset with key := 0x8000 }.key.getLsbD j = false) ∧
    (∀ k < 16, State.reset.key.getLsbD k = false) := by decide

/-- WaitTakesTheLowestPressedKey, the waiting Step, and TimerTransfers. -/
theorem witness_wait_and_timer_steps :
    (Admitted { at200 0xF30A with keyInputs := [0] } ∧
      nextInstr { at200 0xF30A with keyInputs := [0] } = some (.wkey 3) ∧
      { at200 0xF30A with keyInputs := [0] }.keyInput = 0) ∧
    (Admitted (at200 0xF307) ∧ nextInstr (at200 0xF307) = some (.ldvdt 3)) ∧
    (Admitted (at200 0xF315) ∧ nextInstr (at200 0xF315) = some (.lddt 3)) ∧
    (Admitted (at200 0xF318) ∧ nextInstr (at200 0xF318) = some (.ldst 3)) :=
  ⟨⟨⟨rfl, rfl⟩, rfl, rfl⟩, ⟨⟨rfl, rfl⟩, rfl⟩, ⟨⟨rfl, rfl⟩, rfl⟩, ⟨rfl, rfl⟩, rfl⟩

/-- LoadProgramStoresTheBytes, FirstStepRunsTheProgramsFirstWord: the longest program and one byte more; a latched
fault; a second load. -/
theorem witness_load :
    (State.reset.flt = none ∧ State.reset.loaded = false ∧ State.reset.mem.wf) ∧
    (List.replicate 3584 (0 : Byte)).length = Config.memSize - Config.loadOrigin ∧
    Config.memSize - Config.loadOrigin < (List.replicate 3585 (0 : Byte)).length ∧
    { State.reset with flt := some (.romLoadError 3585) }.flt = some (.romLoadError 3585) ∧
    ((at200 0).flt = none ∧ (at200 0).loaded = true) ∧
    ((0x61 : Byte) :: 0x07 :: []).length ≤ Config.memSize - Config.loadOrigin :=
  ⟨by decide, by rw [List.length_replicate]; decide, by rw [List.length_replicate]; decide, rfl, ⟨rfl, rfl⟩, by decide⟩

/-- NextStepSeesTheWrittenKeypad. -/
theorem witness_written_keypad : ∃ t, StepCompletes (writeKeypad 0x0020 (at200 0xF30A)) t := ⟨_, rfl, rfl⟩

end Sys2Proof.Tests
end

section
/-! PROOFS. Control transfer (41_flow.md R71, R73 to R77): the jumps and the four register skips. -/

namespace Sys2Proof

/-! ### Decoding by the top nibble (30_encoding.md R47, R49) -/

/-- The mask F000 keeps the top nibble. -/
theorem fieldT_of_and_F000 {op w : Word} (h : op &&& 0xF000#16 = w) : fieldT op = fieldT w := by
  apply BitVec.eq_of_toNat_eq
  rw [← h, fieldT_toNat, fieldT_toNat, and_F000_toNat, Nat.mul_div_cancel _ (by decide)]

theorem decodeOpcode_jp {op : Word} (h : op &&& 0xF000#16 = 0x1000#16) : decodeOpcode op = .jp (fieldNNN op) := by
  rw [decodeOpcode, fieldT_of_and_F000 h]; rfl

theorem decodeOpcode_se {op : Word} (h : op &&& 0xF000#16 = 0x3000#16) :
    decodeOpcode op = .se (fieldX op) (fieldNN op) := by
  rw [decodeOpcode, fieldT_of_and_F000 h]; rfl

theorem decodeOpcode_sne {op : Word} (h : op &&& 0xF000#16 = 0x4000#16) :
    decodeOpcode op = .sne (fieldX op) (fieldNN op) := by
  rw [decodeOpcode, fieldT_of_and_F000 h]; rfl

theorem decodeOpcode_ser {op : Word} (h : op &&& 0xF000#16 = 0x5000#16) :
    decodeOpcode op = .ser (fieldX op) (fieldY op) := by
  rw [decodeOpcode, fieldT_of_and_F000 h]; rfl

theorem decodeOpcode_sner {op : Word} (h : op &&& 0xF000#16 = 0x9000#16) :
    decodeOpcode op = .sner (fieldX op) (fieldY op) := by
  rw [decodeOpcode, fieldT_of_and_F000 h]; rfl

theorem decodeOpcode_jpv0 {op : Word} (h : op &&& 0xF000#16 = 0xB000#16) :
    decodeOpcode op = .jpv0 (fieldNNN op) := by
  rw [decodeOpcode, fieldT_of_and_F000 h]; rfl

namespace Machine

/-! ### What the handlers answer -/

theorem exec_jp (nnn : Imm12) (s : State) : exec (.jp nnn) s = .next (s.setPc (immAddress nnn)) := rfl

theorem exec_jpv0 (nnn : Imm12) (s : State) :
    exec (.jpv0 nnn) s = .next (s.setPc (immAddress nnn + extendByte (s.reg 0))) := rfl

theorem exec_se (x : Reg) (nn : Byte) (s : State) : exec (.se x nn) s = .next (s.skipIf (s.reg x == nn)) := rfl

theorem exec_sne (x : Reg) (nn : Byte) (s : State) : exec (.sne x nn) s = .next (s.skipIf (s.reg x != nn)) := rfl

theorem exec_ser (x y : Reg) (s : State) : exec (.ser x y) s = .next (s.skipIf (s.reg x == s.reg y)) := rfl

theorem exec_sner (x y : Reg) (s : State) : exec (.sner x y) s = .next (s.skipIf (s.reg x != s.reg y)) := rfl

/-! ### Jump targets -/

/-- `zext_16(NNN)` is NNN: no target is checked, masked or aligned. -/
@[simp] theorem immAddress_toNat (nnn : Imm12) : (immAddress nnn).toNat = nnn.toNat :=
  BitVec.toNat_setWidth_of_le (by decide)

@[simp] theorem extendByte_toNat (b : Byte) : (extendByte b).toNat = b.toNat :=
  BitVec.toNat_setWidth_of_le (by decide)

/-- The sum of JPV0 is at most 4095 + 255, so 16 bits hold it and nothing is reduced. -/
theorem immAddress_add_extendByte_toNat (nnn : Imm12) (b : Byte) :
    (immAddress nnn + extendByte b).toNat = nnn.toNat + b.toNat := by
  have hfits : (immAddress nnn).toNat + (extendByte b).toNat < 2 ^ 16 := by
    have := nnn.isLt
    have := b.isLt
    rw [immAddress_toNat, extendByte_toNat]; omega
  rw [BitVec.toNat_add_of_lt hfits, immAddress_toNat, extendByte_toNat]

/-! ### Frames of the PC updates -/

theorem State.setPc_frame (s : State) (w : Word) : UnchangedExcept [.pc] s (s.setPc w) := by
  apply UnchangedExcept.of_fields <;> simp

theorem State.skipIf_eq_setPc (s : State) (c : Bool) :
    s.skipIf c = s.setPc (if c then s.pc + 2 else s.pc) := rfl

/-- A skip on a test that decides between `p` and `q` adds 2 to PC under `p`, nothing under `q`, and changes no other
part. -/
theorem State.skipIf_spec (s : State) {c : Bool} {p q : Prop} (hp : p → c = true) (hq : q → c = false) :
    UnchangedExcept [.pc] s (s.skipIf c) ∧ (p → (s.skipIf c).pc = s.pc + 2) ∧ (q → (s.skipIf c).pc = s.pc) :=
  ⟨s.skipIf_eq_setPc c ▸ s.setPc_frame _, fun h => by simp [hp h], fun h => by simp [hq h]⟩

/-- SE and SER: the skip on equal bytes. -/
theorem State.skipIf_beq_spec (s : State) (a b : Byte) :
    UnchangedExcept [.pc] s (s.skipIf (a == b)) ∧
    (a.toNat = b.toNat → (s.skipIf (a == b)).pc = s.pc + 2) ∧ (a.toNat ≠ b.toNat → (s.skipIf (a == b)).pc = s.pc) :=
  s.skipIf_spec (by simp [BitVec.toNat_inj]) (by simp [BitVec.toNat_inj])

/-- SNE and SNER: the skip on unequal bytes. -/
theorem State.skipIf_bne_spec (s : State) (a b : Byte) :
    UnchangedExcept [.pc] s (s.skipIf (a != b)) ∧
    (a.toNat ≠ b.toNat → (s.skipIf (a != b)).pc = s.pc + 2) ∧ (a.toNat = b.toNat → (s.skipIf (a != b)).pc = s.pc) :=
  s.skipIf_spec (by simp [BitVec.toNat_inj]) (by simp [BitVec.toNat_inj])

/-! ### The obligations -/

/-- Settles O21: a jump is one write to PC, and the largest sum of JPV0 still fits in 16 bits. -/
theorem jumpsSetThePc : Obligations.JumpsSetThePc :=
  ⟨fun _ => ⟨decodeOpcode_jp, decodeOpcode_jpv0⟩,
   fun nnn s => ⟨_, exec_jp nnn s, immAddress_toNat nnn, s.setPc_frame _⟩,
   fun nnn s => ⟨_, exec_jpv0 nnn s, immAddress_add_extendByte_toNat nnn (s.reg 0), s.setPc_frame _⟩⟩

/-- Settles O24: each skip is `State.skipIf` on an equality or inequality of bytes. -/
theorem skipsAddTwoOnTheirCondition : Obligations.SkipsAddTwoOnTheirCondition :=
  ⟨fun _ => ⟨decodeOpcode_se, decodeOpcode_sne, decodeOpcode_ser, decodeOpcode_sner⟩,
   fun x nn s => ⟨_, exec_se x nn s, s.skipIf_beq_spec (s.reg x) nn⟩,
   fun x nn s => ⟨_, exec_sne x nn s, s.skipIf_bne_spec (s.reg x) nn⟩,
   fun x y s => ⟨_, exec_ser x y s, s.skipIf_beq_spec (s.reg x) (s.reg y)⟩,
   fun x y s => ⟨_, exec_sner x y s, s.skipIf_bne_spec (s.reg x) (s.reg y)⟩⟩

end Machine
end Sys2Proof
end

section
/-! PROOFS. Register load, copy, immediate add and logic (42_alu.md R79 to R84): each is one write to VX. -/

namespace Sys2Proof

/-! ### Decoding by the top nibble, and in family 8 by the bottom nibble too (30_encoding.md R47, R49) -/

/-- The mask F00F keeps the top nibble. -/
theorem fieldT_of_and_F00F {op w : Word} (h : op &&& 0xF00F#16 = w) : fieldT op = fieldT w := by
  apply BitVec.eq_of_toNat_eq
  rw [← h, fieldT_toNat, fieldT_toNat, and_F00F_toNat]; omega

/-- The mask F00F keeps the bottom nibble. -/
theorem subNibble_of_and_F00F {op w : Word} (h : op &&& 0xF00F#16 = w) : subNibble op = subNibble w := by
  apply BitVec.eq_of_toNat_eq
  rw [← h, subNibble_toNat, subNibble_toNat, and_F00F_toNat]; omega

theorem decodeOpcode_ldi {op : Word} (h : op &&& 0xF000#16 = 0x6000#16) :
    decodeOpcode op = .ldi (fieldX op) (fieldNN op) := by
  rw [decodeOpcode, fieldT_of_and_F000 h]; rfl

theorem decodeOpcode_addi {op : Word} (h : op &&& 0xF000#16 = 0x7000#16) :
    decodeOpcode op = .addi (fieldX op) (fieldNN op) := by
  rw [decodeOpcode, fieldT_of_and_F000 h]; rfl

/-- A word whose mask F00F names family 8 is routed on its bottom nibble. -/
theorem decodeOpcode_family8 {op w : Word} (h : op &&& 0xF00F#16 = w) (hw : fieldT w = 0x8#4) :
    decodeOpcode op = decodeFamily8 op := by
  rw [decodeOpcode, fieldT_of_and_F00F h, hw]; rfl

theorem decodeOpcode_mov {op : Word} (h : op &&& 0xF00F#16 = 0x8000#16) :
    decodeOpcode op = .mov (fieldX op) (fieldY op) := by
  rw [decodeOpcode_family8 h rfl, decodeFamily8, subNibble_of_and_F00F h]; rfl

theorem decodeOpcode_or {op : Word} (h : op &&& 0xF00F#16 = 0x8001#16) :
    decodeOpcode op = .or (fieldX op) (fieldY op) := by
  rw [decodeOpcode_family8 h rfl, decodeFamily8, subNibble_of_and_F00F h]; rfl

theorem decodeOpcode_and {op : Word} (h : op &&& 0xF00F#16 = 0x8002#16) :
    decodeOpcode op = .and (fieldX op) (fieldY op) := by
  rw [decodeOpcode_family8 h rfl, decodeFamily8, subNibble_of_and_F00F h]; rfl

theorem decodeOpcode_xor {op : Word} (h : op &&& 0xF00F#16 = 0x8003#16) :
    decodeOpcode op = .xor (fieldX op) (fieldY op) := by
  rw [decodeOpcode_family8 h rfl, decodeFamily8, subNibble_of_and_F00F h]; rfl

namespace Machine

/-! ### What the handlers answer -/

theorem exec_ldi (x : Reg) (nn : Byte) (s : State) : exec (.ldi x nn) s = .next (s.setReg x nn) := rfl

theorem exec_addi (x : Reg) (nn : Byte) (s : State) :
    exec (.addi x nn) s = .next (s.setReg x (s.reg x + nn)) := rfl

theorem exec_mov (x y : Reg) (s : State) : exec (.mov x y) s = .next (s.setReg x (s.reg y)) := rfl

theorem exec_or (x y : Reg) (s : State) : exec (.or x y) s = .next (s.setReg x (s.reg x ||| s.reg y)) := rfl

theorem exec_and (x y : Reg) (s : State) : exec (.and x y) s = .next (s.setReg x (s.reg x &&& s.reg y)) := rfl

theorem exec_xor (x y : Reg) (s : State) : exec (.xor x y) s = .next (s.setReg x (s.reg x ^^^ s.reg y)) := rfl

/-! ### Frames of a register write -/

theorem State.reg_setReg_of_ne (s : State) {x r : Reg} (b : Byte) (h : r ≠ x) : (s.setReg x b).reg r = s.reg r := by
  rw [State.reg_setReg, if_neg h.symm]

theorem State.setReg_frame (s : State) (x : Reg) (b : Byte) : UnchangedExcept [.regs] s (s.setReg x b) := by
  apply UnchangedExcept.of_fields <;> simp

/-- A write to VX leaves every other register, VF too when X is not 15, and every other part. -/
theorem State.setReg_spec (s : State) (x : Reg) (b : Byte) :
    (∀ r, r ≠ x → (s.setReg x b).reg r = s.reg r) ∧ UnchangedExcept [.regs] s (s.setReg x b) :=
  ⟨fun _ => s.reg_setReg_of_ne b, s.setReg_frame x b⟩

/-! ### The obligations -/

/-- Settles O27: LDI and MOV are one write to VX each, of NN and of the old VY. -/
theorem loadImmediateAndCopy : Obligations.LoadImmediateAndCopy :=
  ⟨fun _ => ⟨decodeOpcode_ldi, decodeOpcode_mov⟩,
   fun x nn s => ⟨_, exec_ldi x nn s, s.reg_setReg_self x nn, s.setReg_spec x nn⟩,
   fun x y s => ⟨_, exec_mov x y s, s.reg_setReg_self x (s.reg y), s.setReg_spec x _⟩⟩

/-- Settles O28: ADDI is one write to VX, of a sum of bytes, which is modulo 256. -/
theorem addImmediateWrapsWithoutFlag : Obligations.AddImmediateWrapsWithoutFlag := by
  refine ⟨fun _ => decodeOpcode_addi, fun x nn s => ⟨_, exec_addi x nn s, ?_, s.setReg_spec x _⟩⟩
  rw [State.reg_setReg_self, BitVec.toNat_add]

/-- Settles O29: each logic operation is one write to VX, of the bytes combined bit by bit. -/
theorem logicIsBitwiseWithoutFlag : Obligations.LogicIsBitwiseWithoutFlag := by
  refine ⟨fun _ => ⟨decodeOpcode_or, decodeOpcode_and, decodeOpcode_xor⟩,
    fun x y s => ⟨_, exec_or x y s, fun b => ?_, s.setReg_spec x _⟩,
    fun x y s => ⟨_, exec_and x y s, fun b => ?_, s.setReg_spec x _⟩,
    fun x y s => ⟨_, exec_xor x y s, fun b => ?_, s.setReg_spec x _⟩⟩
  · rw [State.reg_setReg_self, BitVec.getLsbD_or]
  · rw [State.reg_setReg_self, BitVec.getLsbD_and]
  · rw [State.reg_setReg_self, BitVec.getLsbD_xor]

end Machine
end Sys2Proof
end

section
/-! PROOFS. Index loads (43_index_memory.md R95, R97): LDIX and FONT are one write to I each. -/

namespace Sys2Proof

/-! ### Decoding family A by the top nibble, family F by the bottom byte too (30_encoding.md R47, R49) -/

/-- The mask F0FF keeps the top nibble. -/
theorem fieldT_of_and_F0FF {op w : Word} (h : op &&& 0xF0FF#16 = w) : fieldT op = fieldT w := by
  apply BitVec.eq_of_toNat_eq
  rw [← h, fieldT_toNat, fieldT_toNat, and_F0FF_toNat]; omega

/-- The mask F0FF keeps the bottom byte. -/
theorem fieldNN_of_and_F0FF {op w : Word} (h : op &&& 0xF0FF#16 = w) : fieldNN op = fieldNN w := by
  apply BitVec.eq_of_toNat_eq
  rw [← h, fieldNN_toNat, fieldNN_toNat, and_F0FF_toNat]; omega

theorem decodeOpcode_ldix {op : Word} (h : op &&& 0xF000#16 = 0xA000#16) :
    decodeOpcode op = .ldix (fieldNNN op) := by
  rw [decodeOpcode, fieldT_of_and_F000 h]; rfl

/-- A word whose mask F0FF names family F is routed on its bottom byte. -/
theorem decodeOpcode_familyF {op w : Word} (h : op &&& 0xF0FF#16 = w) (hw : fieldT w = 0xF#4) :
    decodeOpcode op = decodeFamilyF op := by
  rw [decodeOpcode, fieldT_of_and_F0FF h, hw]; rfl

theorem decodeOpcode_font {op : Word} (h : op &&& 0xF0FF#16 = 0xF029#16) : decodeOpcode op = .font (fieldX op) := by
  rw [decodeOpcode_familyF h rfl, decodeFamilyF, fieldNN_of_and_F0FF h]; rfl

namespace Machine

/-! ### What the handlers answer -/

theorem exec_ldix (nnn : Imm12) (s : State) : exec (.ldix nnn) s = .next (s.setIndex (immAddress nnn)) := rfl

theorem exec_font (x : Reg) (s : State) : exec (.font x) s = .next (s.setIndex (glyphAddress (s.reg x))) := rfl

/-! ### The address of a glyph and the frame of an index write -/

/-- The whole 8-bit VX counts, and the largest address, 80 + 5 * 255, fits in 16 bits, so nothing is reduced. -/
theorem glyphAddress_toNat (b : Byte) : (glyphAddress b).toNat = Config.fontBase + 5 * b.toNat := by
  have hfits : Config.fontBase + 5 * b.toNat < 2 ^ 16 := by
    have := b.isLt
    rw [Config.fontBase_eq]; omega
  rw [glyphAddress, BitVec.toNat_ofNat, Nat.mod_eq_of_lt hfits]

theorem State.setIndex_frame (s : State) (w : Word) : UnchangedExcept [.index] s (s.setIndex w) := by
  apply UnchangedExcept.of_fields <;> simp

/-! ### The obligation -/

/-- Settles O37: LDIX and FONT are one write to I each, of an address that 16 bits hold unreduced. -/
theorem indexLoads : Obligations.IndexLoads :=
  ⟨fun _ => ⟨decodeOpcode_ldix, decodeOpcode_font⟩,
   fun nnn s => ⟨_, exec_ldix nnn s, immAddress_toNat nnn, s.setIndex_frame _⟩,
   fun x s => ⟨_, exec_font x s, glyphAddress_toNat (s.reg x), s.setIndex_frame _⟩⟩

end Machine
end Sys2Proof
end

section
/-! PROOFS. CLS (44_display.md R105): one write of the blank grid to the display. -/

namespace Sys2Proof

/-! ### Decoding in family 0 by the bottom nibble (30_encoding.md R47, R49) -/

/-- A word whose mask F00F names family 0 is routed on its bottom nibble. -/
theorem decodeOpcode_family0 {op w : Word} (h : op &&& 0xF00F#16 = w) (hw : fieldT w = 0x0#4) :
    decodeOpcode op = decodeFamily0 op := by
  rw [decodeOpcode, fieldT_of_and_F00F h, hw]; rfl

theorem decodeOpcode_cls {op : Word} (h : op &&& 0xF00F#16 = 0x0000#16) : decodeOpcode op = .cls := by
  rw [decodeOpcode_family0 h rfl, decodeFamily0, subNibble_of_and_F00F h]; rfl

namespace Machine

/-! ### What the handler answers, and the frame of a display write -/

theorem exec_cls (s : State) : exec .cls s = .next (s.setDisplay Framebuffer.blank) := rfl

theorem State.setDisplay_frame (s : State) (d : Framebuffer) : UnchangedExcept [.display] s (s.setDisplay d) := by
  apply UnchangedExcept.of_fields <;> simp

/-! ### The obligation -/

/-- Settles O45: CLS is one write to the display, of the blank grid, none of whose cells is lit. -/
theorem clearUnlightsEveryCell : Obligations.ClearUnlightsEveryCell := by
  refine ⟨fun _ => decodeOpcode_cls, fun s => ⟨_, exec_cls s, fun k => ?_, s.setDisplay_frame _⟩⟩
  rw [State.setDisplay_fb, Framebuffer.cell_blank]

end Machine
end Sys2Proof
end

section
/-! PROOFS. WKEY and the timer transfers (45_keypad_timers.md R117 to R120): each handler is one write, to VX, PC, DT or
ST, and the Step around it adds only the fetch, the keypad sample and the tick of the timers. -/

namespace Sys2Proof

/-! ### Decoding in family F by the bottom byte (30_encoding.md R47, R49) -/

theorem decodeOpcode_ldvdt {op : Word} (h : op &&& 0xF0FF#16 = 0xF007#16) : decodeOpcode op = .ldvdt (fieldX op) := by
  rw [decodeOpcode_familyF h rfl, decodeFamilyF, fieldNN_of_and_F0FF h]; rfl

theorem decodeOpcode_wkey {op : Word} (h : op &&& 0xF0FF#16 = 0xF00A#16) : decodeOpcode op = .wkey (fieldX op) := by
  rw [decodeOpcode_familyF h rfl, decodeFamilyF, fieldNN_of_and_F0FF h]; rfl

theorem decodeOpcode_lddt {op : Word} (h : op &&& 0xF0FF#16 = 0xF015#16) : decodeOpcode op = .lddt (fieldX op) := by
  rw [decodeOpcode_familyF h rfl, decodeFamilyF, fieldNN_of_and_F0FF h]; rfl

theorem decodeOpcode_ldst {op : Word} (h : op &&& 0xF0FF#16 = 0xF018#16) : decodeOpcode op = .ldst (fieldX op) := by
  rw [decodeOpcode_familyF h rfl, decodeFamilyF, fieldNN_of_and_F0FF h]; rfl

namespace Machine

/-! ### What the handlers answer -/

theorem exec_ldvdt (x : Reg) (s : State) : exec (.ldvdt x) s = .next (s.setReg x s.dt) := rfl

theorem exec_lddt (x : Reg) (s : State) : exec (.lddt x) s = .next (s.setDelay (s.reg x)) := rfl

theorem exec_ldst (x : Reg) (s : State) : exec (.ldst x) s = .next (s.setSound (s.reg x)) := rfl

theorem exec_wkey_of_firstKey_some {s : State} {k : Nat} (x : Reg) (h : s.firstKey = some k) :
    exec (.wkey x) s = .next (s.setReg x (.ofNat 8 k)) := by
  rw [exec, execWkey, h]

theorem exec_wkey_of_firstKey_none {s : State} (x : Reg) (h : s.firstKey = none) :
    exec (.wkey x) s = .next (s.setPc (s.pc - 2)) := by
  rw [exec, execWkey, h]

/-! ### Frames of the timer writes -/

theorem State.setDelay_frame (s : State) (b : Byte) : UnchangedExcept [.delay] s (s.setDelay b) := by
  apply UnchangedExcept.of_fields <;> simp

theorem State.setSound_frame (s : State) (b : Byte) : UnchangedExcept [.sound] s (s.setSound b) := by
  apply UnchangedExcept.of_fields <;> simp

/-! ### The Step around a handler -/

/-- An admitted Step whose fetch is in range completes, with the timers ticked, when its handler raises no fault. -/
theorem stepCompletes_of_handler {s : State} {i : Instr} (ha : Admitted s) (hi : nextInstr s = some i) :
    ∃ op, ∀ u, exec i (s.enterHandler op) = .next u → u.flt = none → StepCompletes s u.tickTimers := by
  obtain ⟨hflt, hloaded⟩ := ha
  obtain ⟨op, hop, rfl⟩ := nextInstr_eq_some.1 hi
  refine ⟨op, fun u hu hnone => ⟨?_, hnone⟩⟩
  rw [step_of_exec hflt hloaded hop hu, State.endStep_of_none hnone]

/-- The key scan finds nothing in a Step that samples a keypad with no key down. -/
theorem State.firstKey_enterHandler_eq_none {s : State} (h : s.keyInput = 0) (op : Word) :
    (s.enterHandler op).firstKey = none := by
  rw [State.firstKey_eq_none]
  intro k _
  rw [State.keyPressed, State.enterHandler_key, h]
  exact BitVec.getLsbD_zero

/-- Going back by 2 undoes the fetch's advance of PC, so that a waiting Step leaves only the opcode, the keypad sample
and the timers changed. -/
theorem State.rewind_frame (s : State) (op : Word) :
    UnchangedExcept [.opcode, .delay, .sound, .keypad] s
      ((s.enterHandler op).setPc ((s.enterHandler op).pc - 2)).tickTimers := by
  apply UnchangedExcept.of_fields <;> simp

/-! ### The obligations -/

/-- Settles O51: WKEY writes VX when the key scan finds a key and rewinds PC when it finds none; the rewind undoes the
fetch's advance. -/
theorem waitTakesTheLowestPressedKey : Obligations.WaitTakesTheLowestPressedKey := by
  refine ⟨fun _ => decodeOpcode_wkey, fun x s k hk hpressed hlower => ?_, fun x s hnone => ?_,
    fun x s ha hi hnone => ?_⟩
  · refine ⟨_, exec_wkey_of_firstKey_some x (State.firstKey_eq_some.2 ⟨hk, hpressed, hlower⟩), ?_, s.setReg_spec x _⟩
    have hbyte : k < 2 ^ 8 := by omega
    rw [State.reg_setReg_self, BitVec.toNat_ofNat, Nat.mod_eq_of_lt hbyte]
  · exact ⟨_, exec_wkey_of_firstKey_none x (State.firstKey_eq_none.2 hnone), State.setPc_pc s _, s.setPc_frame _⟩
  · obtain ⟨op, hstep⟩ := stepCompletes_of_handler ha hi
    exact ⟨_, hstep _ (exec_wkey_of_firstKey_none x (State.firstKey_enterHandler_eq_none hnone op)) ha.1,
      tick_toNat s.dt, tick_toNat s.st, s.rewind_frame op⟩

/-- Settles O52: each transfer is one write, and the tick of its Step comes after it: LDVDT reads the old DT, and what
LDDT and LDST write is already one down at the end of the Step. -/
theorem timerTransfers : Obligations.TimerTransfers := by
  refine ⟨fun _ => ⟨decodeOpcode_ldvdt, decodeOpcode_lddt, decodeOpcode_ldst⟩,
    fun x s => ⟨_, exec_ldvdt x s, s.reg_setReg_self x s.dt, s.setReg_spec x _⟩,
    fun x s => ⟨_, exec_lddt x s, State.setDelay_dt s _, s.setDelay_frame _⟩,
    fun x s => ⟨_, exec_ldst x s, State.setSound_st s _, s.setSound_frame _⟩,
    fun x s ha hi => ?_, fun x s ha hi => ?_, fun x s ha hi => ?_⟩
  all_goals obtain ⟨op, hstep⟩ := stepCompletes_of_handler ha hi
  · exact ⟨_, hstep _ (exec_ldvdt x _) ha.1, State.reg_setReg_self _ x s.dt, tick_toNat s.dt⟩
  · exact ⟨_, hstep _ (exec_lddt x _) ha.1, tick_toNat (s.reg x)⟩
  · exact ⟨_, hstep _ (exec_ldst x _) ha.1, tick_toNat (s.reg x)⟩

end Machine
end Sys2Proof
end

section
/-! PROOFS. Decoder and encoder (30_encoding.md R47 to R54): the decoder inverts the encoder, is total, agrees with the
opcode table, and does not look at the bits it ignores. -/

namespace Sys2Proof

/-! ### Decoding by the opcode table's mask, for the rows that no lemma above names (30_encoding.md R47, R49) -/

theorem decodeOpcode_ret {op : Word} (h : op &&& 0xF00F#16 = 0x000E#16) : decodeOpcode op = .ret := by
  rw [decodeOpcode_family0 h rfl, decodeFamily0, subNibble_of_and_F00F h]; rfl

theorem decodeOpcode_call {op : Word} (h : op &&& 0xF000#16 = 0x2000#16) :
    decodeOpcode op = .call (fieldNNN op) := by
  rw [decodeOpcode, fieldT_of_and_F000 h]; rfl

theorem decodeOpcode_add {op : Word} (h : op &&& 0xF00F#16 = 0x8004#16) :
    decodeOpcode op = .add (fieldX op) (fieldY op) := by
  rw [decodeOpcode_family8 h rfl, decodeFamily8, subNibble_of_and_F00F h]; rfl

theorem decodeOpcode_sub {op : Word} (h : op &&& 0xF00F#16 = 0x8005#16) :
    decodeOpcode op = .sub (fieldX op) (fieldY op) := by
  rw [decodeOpcode_family8 h rfl, decodeFamily8, subNibble_of_and_F00F h]; rfl

theorem decodeOpcode_shr {op : Word} (h : op &&& 0xF00F#16 = 0x8006#16) :
    decodeOpcode op = .shr (fieldX op) (fieldY op) := by
  rw [decodeOpcode_family8 h rfl, decodeFamily8, subNibble_of_and_F00F h]; rfl

theorem decodeOpcode_subn {op : Word} (h : op &&& 0xF00F#16 = 0x8007#16) :
    decodeOpcode op = .subn (fieldX op) (fieldY op) := by
  rw [decodeOpcode_family8 h rfl, decodeFamily8, subNibble_of_and_F00F h]; rfl

theorem decodeOpcode_shl {op : Word} (h : op &&& 0xF00F#16 = 0x800E#16) :
    decodeOpcode op = .shl (fieldX op) (fieldY op) := by
  rw [decodeOpcode_family8 h rfl, decodeFamily8, subNibble_of_and_F00F h]; rfl

theorem decodeOpcode_rnd {op : Word} (h : op &&& 0xF000#16 = 0xC000#16) :
    decodeOpcode op = .rnd (fieldX op) (fieldNN op) := by
  rw [decodeOpcode, fieldT_of_and_F000 h]; rfl

/-- A word whose mask F00F names family E is routed on its bottom nibble. -/
theorem decodeOpcode_familyE {op w : Word} (h : op &&& 0xF00F#16 = w) (hw : fieldT w = 0xE#4) :
    decodeOpcode op = decodeFamilyE op := by
  rw [decodeOpcode, fieldT_of_and_F00F h, hw]; rfl

theorem decodeOpcode_skp {op : Word} (h : op &&& 0xF00F#16 = 0xE00E#16) : decodeOpcode op = .skp (fieldX op) := by
  rw [decodeOpcode_familyE h rfl, decodeFamilyE, subNibble_of_and_F00F h]; rfl

theorem decodeOpcode_sknp {op : Word} (h : op &&& 0xF00F#16 = 0xE001#16) : decodeOpcode op = .sknp (fieldX op) := by
  rw [decodeOpcode_familyE h rfl, decodeFamilyE, subNibble_of_and_F00F h]; rfl

theorem decodeOpcode_addix {op : Word} (h : op &&& 0xF0FF#16 = 0xF01E#16) : decodeOpcode op = .addix (fieldX op) := by
  rw [decodeOpcode_familyF h rfl, decodeFamilyF, fieldNN_of_and_F0FF h]; rfl

theorem decodeOpcode_bcd {op : Word} (h : op &&& 0xF0FF#16 = 0xF033#16) : decodeOpcode op = .bcd (fieldX op) := by
  rw [decodeOpcode_familyF h rfl, decodeFamilyF, fieldNN_of_and_F0FF h]; rfl

theorem decodeOpcode_dump {op : Word} (h : op &&& 0xF0FF#16 = 0xF055#16) : decodeOpcode op = .dump (fieldX op) := by
  rw [decodeOpcode_familyF h rfl, decodeFamilyF, fieldNN_of_and_F0FF h]; rfl

theorem decodeOpcode_load {op : Word} (h : op &&& 0xF0FF#16 = 0xF065#16) : decodeOpcode op = .load (fieldX op) := by
  rw [decodeOpcode_familyF h rfl, decodeFamilyF, fieldNN_of_and_F0FF h]; rfl

/-- Family F is the decoder's last case. -/
theorem decodeOpcode_of_fieldT_F {op : Word} (h : fieldT op = 0xF#4) : decodeOpcode op = decodeFamilyF op := by
  rw [decodeOpcode, h]; rfl

/-! ### Unmapped opcodes (30_encoding.md R51) -/

/-- The list of R51 in terms of the fields that the decoder tests. -/
theorem unmapped_iff (op : Word) : unmapped op = true ↔
    (fieldT op = 0x0#4 ∧ subNibble op ∉ [0x0#4, 0xE#4]) ∨
    (fieldT op = 0x8#4 ∧ subNibble op ∉ [0x0#4, 0x1#4, 0x2#4, 0x3#4, 0x4#4, 0x5#4, 0x6#4, 0x7#4, 0xE#4]) ∨
    (fieldT op = 0xE#4 ∧ subNibble op ∉ [0x1#4, 0xE#4]) ∨
    (fieldT op = 0xF#4 ∧
      fieldNN op ∉ [0x07#8, 0x0A#8, 0x15#8, 0x18#8, 0x1E#8, 0x29#8, 0x33#8, 0x55#8, 0x65#8]) := by
  have h8 : ∀ n : BitVec 4, n.toNat ∈ [0x8, 0x9, 0xA, 0xB, 0xC, 0xD, 0xF] ↔
      n ∉ [0x0#4, 0x1#4, 0x2#4, 0x3#4, 0x4#4, 0x5#4, 0x6#4, 0x7#4, 0xE#4] := by decide
  rw [← h8]
  simp only [unmapped, fieldT, subNibble, fieldNN, Bool.or_eq_true, Bool.and_eq_true, beq_iff_eq,
    Bool.not_eq_true', List.contains_eq_mem, decide_eq_false_iff_not, decide_eq_true_eq, List.mem_cons,
    List.not_mem_nil, or_false, ← BitVec.toNat_inj, BitVec.toNat_ofNat, or_assoc]

/-- What R51 lists is what falls through the decoder's tables. -/
theorem decodeOpcode_of_unmapped {op : Word} (h : unmapped op = true) : decodeOpcode op = .nop op := by
  rw [unmapped_iff] at h
  obtain ⟨ht, hn⟩ | ⟨ht, hn⟩ | ⟨ht, hn⟩ | ⟨ht, hn⟩ := h
  · simp only [decodeOpcode, ht, decodeFamily0]
    split <;> simp_all
  · simp only [decodeOpcode, ht, decodeFamily8]
    split <;> simp_all
  · simp only [decodeOpcode, ht, decodeFamilyE]
    split <;> simp_all
  · simp only [decodeOpcode, ht, decodeFamilyF]
    split <;> simp_all

/-! ### The rows of the opcode table (30_encoding.md R47) -/

theorem eq_F_of_notMem : ∀ t : BitVec 4, t ∉ [0x0#4, 0x1#4, 0x2#4, 0x3#4, 0x4#4, 0x5#4, 0x6#4, 0x7#4, 0x8#4, 0x9#4,
    0xA#4, 0xB#4, 0xC#4, 0xD#4, 0xE#4] → t = 0xF#4 := by decide

/-- The mnemonic depends on the tested bits only: the top nibble, in the families 0x0, 0x8 and 0xE the bottom nibble, in
family 0xF the bottom byte. -/
theorem mnemonic_congr {op op' : Word} (ht : fieldT op = fieldT op')
    (hn : fieldT op' ∈ [0x0#4, 0x8#4, 0xE#4] → subNibble op = subNibble op')
    (hNN : fieldT op' = 0xF#4 → fieldNN op = fieldNN op') :
    (decodeOpcode op).mnemonic = (decodeOpcode op').mnemonic := by
  by_cases hF : fieldT op' = 0xF#4
  · rw [decodeOpcode_of_fieldT_F (ht.trans hF), decodeOpcode_of_fieldT_F hF, decodeFamilyF, decodeFamilyF, hNN hF]
    split <;> rfl
  · simp only [decodeOpcode, ht]
    split
    case h_1 h => rw [decodeFamily0, decodeFamily0, hn (by simp [h])]; split <;> rfl
    case h_9 h => rw [decodeFamily8, decodeFamily8, hn (by simp [h])]; split <;> rfl
    case h_15 h => rw [decodeFamilyE, decodeFamilyE, hn (by simp [h])]; split <;> rfl
    case h_16 => exact absurd (eq_F_of_notMem _ (by simp_all)) hF
    all_goals rfl

/-- The table's masks test what the decoder tests, and each row's own pattern selects it. -/
theorem opcodeTable_masks : ∀ row ∈ opcodeTable, row.selects row.pattern = true ∧
    ((row.mask = 0xF000#16 ∧ fieldT row.pattern ∉ [0x0#4, 0x8#4, 0xE#4, 0xF#4]) ∨
     (row.mask = 0xF00F#16 ∧ fieldT row.pattern ∈ [0x0#4, 0x8#4, 0xE#4]) ∨
     (row.mask = 0xF0FF#16 ∧ fieldT row.pattern = 0xF#4)) := by decide

theorem mnemonic_pattern : ∀ row ∈ opcodeTable, (decodeOpcode row.pattern).mnemonic = row.mnemonic := by decide

/-- An opcode that selects a row decodes to that row's instruction. -/
theorem mnemonic_of_selects {op : Word} {row : OpcodeRow} (hmem : row ∈ opcodeTable) (h : row.selects op = true) :
    (decodeOpcode op).mnemonic = row.mnemonic := by
  have h : op &&& row.mask = row.pattern := eq_of_beq h
  rw [← mnemonic_pattern row hmem]
  obtain ⟨-, ⟨hm, ht⟩ | ⟨hm, ht⟩ | ⟨hm, ht⟩⟩ := opcodeTable_masks row hmem <;> rw [hm] at h
  · exact mnemonic_congr (fieldT_of_and_F000 h) (fun h' => absurd (List.mem_append_left [0xF#4] h') ht)
      (fun h' => absurd (by simp [h']) ht)
  · exact mnemonic_congr (fieldT_of_and_F00F h) (fun _ => subNibble_of_and_F00F h)
      (fun h' => absurd (h' ▸ ht) (by decide))
  · exact mnemonic_congr (fieldT_of_and_F0FF h) (fun h' => absurd (ht ▸ h') (by decide))
      (fun _ => fieldNN_of_and_F0FF h)

/-- A row with the mask F000 is selected by the top nibble. -/
theorem selects_of_fieldT {op : Word} {row : OpcodeRow} (hmask : row.mask = 0xF000#16)
    (hrow : row.selects row.pattern = true) (ht : fieldT op = fieldT row.pattern) : row.selects op = true := by
  rw [← BitVec.toNat_inj, fieldT_toNat, fieldT_toNat] at ht
  rw [OpcodeRow.selects, hmask, beq_iff_eq, ← BitVec.toNat_inj, and_F000_toNat] at hrow ⊢
  rwa [ht]

/-- A row with the mask F00F is selected by the top and the bottom nibble. -/
theorem selects_of_fieldT_subNibble {op : Word} {row : OpcodeRow} (hmask : row.mask = 0xF00F#16)
    (hrow : row.selects row.pattern = true) (ht : fieldT op = fieldT row.pattern)
    (hn : subNibble op = subNibble row.pattern) : row.selects op = true := by
  rw [← BitVec.toNat_inj, fieldT_toNat, fieldT_toNat] at ht
  rw [← BitVec.toNat_inj, subNibble_toNat, subNibble_toNat] at hn
  rw [OpcodeRow.selects, hmask, beq_iff_eq, ← BitVec.toNat_inj, and_F00F_toNat] at hrow ⊢
  rwa [ht, hn]

/-- A row with the mask F0FF is selected by the top nibble and the bottom byte. -/
theorem selects_of_fieldT_fieldNN {op : Word} {row : OpcodeRow} (hmask : row.mask = 0xF0FF#16)
    (hrow : row.selects row.pattern = true) (ht : fieldT op = fieldT row.pattern)
    (hn : fieldNN op = fieldNN row.pattern) : row.selects op = true := by
  rw [← BitVec.toNat_inj, fieldT_toNat, fieldT_toNat] at ht
  rw [← BitVec.toNat_inj, fieldNN_toNat, fieldNN_toNat] at hn
  rw [OpcodeRow.selects, hmask, beq_iff_eq, ← BitVec.toNat_inj, and_F0FF_toNat] at hrow ⊢
  rwa [ht, hn]

/-- The families other than 0x0, 0x8, 0xE and 0xF have one row each. -/
theorem exists_row_of_family : ∀ t : BitVec 4, t ∉ [0x0#4, 0x8#4, 0xE#4, 0xF#4] →
    ∃ row ∈ opcodeTable, row.mask = 0xF000#16 ∧ t = fieldT row.pattern := by decide

/-- The rows of the families 0x0, 0x8 and 0xE. -/
theorem exists_row_of_nibble :
    (∀ n ∈ [0x0#4, 0xE#4], ∃ row ∈ opcodeTable, row.mask = 0xF00F#16 ∧ 0x0#4 = fieldT row.pattern ∧
      n = subNibble row.pattern) ∧
    (∀ n ∈ [0x0#4, 0x1#4, 0x2#4, 0x3#4, 0x4#4, 0x5#4, 0x6#4, 0x7#4, 0xE#4],
      ∃ row ∈ opcodeTable, row.mask = 0xF00F#16 ∧ 0x8#4 = fieldT row.pattern ∧ n = subNibble row.pattern) ∧
    (∀ n ∈ [0x1#4, 0xE#4], ∃ row ∈ opcodeTable, row.mask = 0xF00F#16 ∧ 0xE#4 = fieldT row.pattern ∧
      n = subNibble row.pattern) := by decide

/-- The rows of family 0xF. -/
theorem exists_row_of_byte :
    ∀ nn ∈ [0x07#8, 0x0A#8, 0x15#8, 0x18#8, 0x1E#8, 0x29#8, 0x33#8, 0x55#8, 0x65#8],
      ∃ row ∈ opcodeTable, row.mask = 0xF0FF#16 ∧ 0xF#4 = fieldT row.pattern ∧ nn = fieldNN row.pattern := by decide

/-- Every mapped opcode selects a row. -/
theorem exists_selects_of_mapped {op : Word} (h : unmapped op = false) :
    ∃ row ∈ opcodeTable, row.selects op = true := by
  have hmapped : ¬ unmapped op = true := by simp [h]
  simp only [unmapped_iff, not_or, not_and_or, not_not] at hmapped
  obtain ⟨h0, h8, hE, hF⟩ := hmapped
  obtain ⟨rows0, rows8, rowsE⟩ := exists_row_of_nibble
  have nibble {t n} (ht : fieldT op = t) (hn : subNibble op = n) (hrow : ∃ row ∈ opcodeTable,
      row.mask = 0xF00F#16 ∧ t = fieldT row.pattern ∧ n = subNibble row.pattern) :
      ∃ row ∈ opcodeTable, row.selects op = true := by
    obtain ⟨row, hmem, hmask, rfl, rfl⟩ := hrow
    exact ⟨row, hmem, selects_of_fieldT_subNibble hmask (opcodeTable_masks row hmem).1 ht hn⟩
  by_cases ht : fieldT op ∈ [0x0#4, 0x8#4, 0xE#4, 0xF#4]
  · simp only [List.mem_cons, List.not_mem_nil, or_false] at ht
    obtain ht | ht | ht | ht := ht
    · exact nibble ht rfl (rows0 _ (h0.resolve_left (not_not.2 ht)))
    · exact nibble ht rfl (rows8 _ (h8.resolve_left (not_not.2 ht)))
    · exact nibble ht rfl (rowsE _ (hE.resolve_left (not_not.2 ht)))
    · obtain ⟨row, hmem, hmask, hT, hNN⟩ := exists_row_of_byte _ (hF.resolve_left (not_not.2 ht))
      exact ⟨row, hmem, selects_of_fieldT_fieldNN hmask (opcodeTable_masks row hmem).1 (ht.trans hT) hNN⟩
  · obtain ⟨row, hmem, hmask, hT⟩ := exists_row_of_family _ ht
    exact ⟨row, hmem, selects_of_fieldT hmask (opcodeTable_masks row hmem).1 hT⟩

theorem mnemonic_ne_nop : ∀ row ∈ opcodeTable, row.mnemonic ≠ "NOP" := by decide

theorem eq_of_mnemonic_eq : ∀ row ∈ opcodeTable, ∀ row' ∈ opcodeTable, row.mnemonic = row'.mnemonic → row = row' := by
  decide

/-! ### Decoding and encoding -/

/-- Only a NOP can be ill formed. -/
theorem wellFormed_of_mnemonic_ne {i : Instr} (h : i.mnemonic ≠ "NOP") : i.wellFormed = true := by
  cases i with
  | nop op => exact absurd rfl h
  | _ => rfl

theorem wellFormed_decodeOpcode (op : Word) : (decodeOpcode op).wellFormed = true := by
  cases h : unmapped op with
  | true => rw [decodeOpcode_of_unmapped h]; exact h
  | false =>
    obtain ⟨row, hmem, hsel⟩ := exists_selects_of_mapped h
    exact wellFormed_of_mnemonic_ne (mnemonic_of_selects hmem hsel ▸ mnemonic_ne_nop row hmem)

theorem decodeOpcode_encode {i : Instr} (h : i.wellFormed = true) : decodeOpcode (encode i) = i := by
  cases i with
  | cls => rfl
  | ret => rfl
  | jp nnn => obtain ⟨ht, hn⟩ := Laws.EncodeFields.jp nnn; simp only [decodeOpcode, ht, hn]
  | call nnn => obtain ⟨ht, hn⟩ := Laws.EncodeFields.call nnn; simp only [decodeOpcode, ht, hn]
  | se x nn => obtain ⟨ht, hx, hn⟩ := Laws.EncodeFields.se x nn; simp only [decodeOpcode, ht, hx, hn]
  | sne x nn => obtain ⟨ht, hx, hn⟩ := Laws.EncodeFields.sne x nn; simp only [decodeOpcode, ht, hx, hn]
  | ser x y => obtain ⟨ht, hx, hy⟩ := Laws.EncodeFields.ser x y; simp only [decodeOpcode, ht, hx, hy]
  | ldi x nn => obtain ⟨ht, hx, hn⟩ := Laws.EncodeFields.ldi x nn; simp only [decodeOpcode, ht, hx, hn]
  | addi x nn => obtain ⟨ht, hx, hn⟩ := Laws.EncodeFields.addi x nn; simp only [decodeOpcode, ht, hx, hn]
  | mov x y =>
    obtain ⟨ht, hx, hy, hs⟩ := Laws.EncodeFields.mov x y
    simp only [decodeOpcode, decodeFamily8, ht, hx, hy, hs]
  | or x y =>
    obtain ⟨ht, hx, hy, hs⟩ := Laws.EncodeFields.or x y
    simp only [decodeOpcode, decodeFamily8, ht, hx, hy, hs]
  | and x y =>
    obtain ⟨ht, hx, hy, hs⟩ := Laws.EncodeFields.and x y
    simp only [decodeOpcode, decodeFamily8, ht, hx, hy, hs]
  | xor x y =>
    obtain ⟨ht, hx, hy, hs⟩ := Laws.EncodeFields.xor x y
    simp only [decodeOpcode, decodeFamily8, ht, hx, hy, hs]
  | add x y =>
    obtain ⟨ht, hx, hy, hs⟩ := Laws.EncodeFields.add x y
    simp only [decodeOpcode, decodeFamily8, ht, hx, hy, hs]
  | sub x y =>
    obtain ⟨ht, hx, hy, hs⟩ := Laws.EncodeFields.sub x y
    simp only [decodeOpcode, decodeFamily8, ht, hx, hy, hs]
  | shr x y =>
    obtain ⟨ht, hx, hy, hs⟩ := Laws.EncodeFields.shr x y
    simp only [decodeOpcode, decodeFamily8, ht, hx, hy, hs]
  | subn x y =>
    obtain ⟨ht, hx, hy, hs⟩ := Laws.EncodeFields.subn x y
    simp only [decodeOpcode, decodeFamily8, ht, hx, hy, hs]
  | shl x y =>
    obtain ⟨ht, hx, hy, hs⟩ := Laws.EncodeFields.shl x y
    simp only [decodeOpcode, decodeFamily8, ht, hx, hy, hs]
  | sner x y => obtain ⟨ht, hx, hy⟩ := Laws.EncodeFields.sner x y; simp only [decodeOpcode, ht, hx, hy]
  | ldix nnn => obtain ⟨ht, hn⟩ := Laws.EncodeFields.ldix nnn; simp only [decodeOpcode, ht, hn]
  | jpv0 nnn => obtain ⟨ht, hn⟩ := Laws.EncodeFields.jpv0 nnn; simp only [decodeOpcode, ht, hn]
  | rnd x nn => obtain ⟨ht, hx, hn⟩ := Laws.EncodeFields.rnd x nn; simp only [decodeOpcode, ht, hx, hn]
  | drw x y n => obtain ⟨ht, hx, hy, hn⟩ := Laws.EncodeFields.drw x y n; simp only [decodeOpcode, ht, hx, hy, hn]
  | skp x => obtain ⟨ht, hx, hs⟩ := Laws.EncodeFields.skp x; simp only [decodeOpcode, decodeFamilyE, ht, hx, hs]
  | sknp x => obtain ⟨ht, hx, hs⟩ := Laws.EncodeFields.sknp x; simp only [decodeOpcode, decodeFamilyE, ht, hx, hs]
  | ldvdt x =>
    obtain ⟨ht, hx, hs⟩ := Laws.EncodeFields.ldvdt x
    simp only [decodeOpcode_of_fieldT_F ht, decodeFamilyF, hx, hs]
  | wkey x =>
    obtain ⟨ht, hx, hs⟩ := Laws.EncodeFields.wkey x
    simp only [decodeOpcode_of_fieldT_F ht, decodeFamilyF, hx, hs]
  | lddt x =>
    obtain ⟨ht, hx, hs⟩ := Laws.EncodeFields.lddt x
    simp only [decodeOpcode_of_fieldT_F ht, decodeFamilyF, hx, hs]
  | ldst x =>
    obtain ⟨ht, hx, hs⟩ := Laws.EncodeFields.ldst x
    simp only [decodeOpcode_of_fieldT_F ht, decodeFamilyF, hx, hs]
  | addix x =>
    obtain ⟨ht, hx, hs⟩ := Laws.EncodeFields.addix x
    simp only [decodeOpcode_of_fieldT_F ht, decodeFamilyF, hx, hs]
  | font x =>
    obtain ⟨ht, hx, hs⟩ := Laws.EncodeFields.font x
    simp only [decodeOpcode_of_fieldT_F ht, decodeFamilyF, hx, hs]
  | bcd x =>
    obtain ⟨ht, hx, hs⟩ := Laws.EncodeFields.bcd x
    simp only [decodeOpcode_of_fieldT_F ht, decodeFamilyF, hx, hs]
  | dump x =>
    obtain ⟨ht, hx, hs⟩ := Laws.EncodeFields.dump x
    simp only [decodeOpcode_of_fieldT_F ht, decodeFamilyF, hx, hs]
  | load x =>
    obtain ⟨ht, hx, hs⟩ := Laws.EncodeFields.load x
    simp only [decodeOpcode_of_fieldT_F ht, decodeFamilyF, hx, hs]
  | nop op => exact decodeOpcode_of_unmapped h

/-! ### The obligations -/

/-- Settles O1: each word decodes by evaluation. -/
theorem writtenOutWordsDecode : Obligations.WrittenOutWordsDecode :=
  ⟨rfl, rfl, rfl, rfl, rfl, rfl, rfl, rfl, rfl, rfl, rfl, rfl, rfl, rfl, rfl, rfl, rfl⟩

/-- Settles O2: the encoder's word carries the row's numbers and the operands in the fields that the decoder reads, and
the decoder joins the two bytes back to that word. -/
theorem decodeOfEncodeIsTheInstruction : Obligations.DecodeOfEncodeIsTheInstruction := fun i hi =>
  ⟨decodeOpcode_encode hi, fun rest => by rw [decode_encodeBytes, decodeOpcode_encode hi]⟩

/-- Settles O3: an opcode is a NOP only if it is unmapped, and what is well formed decodes from its own word. -/
theorem everyOpcodeHasAWellFormedMeaning : Obligations.EveryOpcodeHasAWellFormedMeaning := fun op =>
  ⟨wellFormed_decodeOpcode op, decodeOpcode_encode (wellFormed_decodeOpcode op)⟩

/-- Settles O4: a selected row gives the mnemonic, a mapped opcode selects a row, and no two rows share a mnemonic. -/
theorem decoderAgreesWithTheOpcodeTable : Obligations.DecoderAgreesWithTheOpcodeTable := by
  refine fun op => ⟨fun row hmem => ⟨mnemonic_of_selects hmem, fun hmn => ?_⟩, fun hnop row hmem => ?_, fun hnone => ?_⟩
  · cases h : unmapped op with
    | true =>
      rw [decodeOpcode_of_unmapped h] at hmn
      exact absurd hmn.symm (mnemonic_ne_nop row hmem)
    | false =>
      obtain ⟨row', hmem', hsel⟩ := exists_selects_of_mapped h
      have hrow : row' = row := eq_of_mnemonic_eq row' hmem' row hmem ((mnemonic_of_selects hmem' hsel).symm.trans hmn)
      exact hrow ▸ hsel
  · refine Bool.eq_false_iff.2 fun hsel => mnemonic_ne_nop row hmem ?_
    rw [← mnemonic_of_selects hmem hsel, hnop]; rfl
  · cases h : unmapped op with
    | true => exact decodeOpcode_of_unmapped h
    | false =>
      obtain ⟨row, hmem, hsel⟩ := exists_selects_of_mapped h
      exact absurd hsel (by simp [hnone row hmem])

/-- Settles O5: the decoder's branches read only the fields that the two opcodes share; the one branch that keeps the
whole word is the NOP of an unmapped opcode. -/
theorem ignoredBitsDoNotMatter : Obligations.IgnoredBitsDoNotMatter := by
  refine fun op op' ht => ⟨?_, ?_⟩
  · intro hfamily hn hmapped
    have hmapped : ¬ unmapped op = true := by simp [hmapped]
    simp only [unmapped_iff, not_or, not_and_or, not_not] at hmapped
    obtain ⟨hrow0, -, hrowE, -⟩ := hmapped
    obtain h0 | ⟨hE, hx⟩ := hfamily
    · have hrow := hrow0.resolve_left (not_not.2 h0)
      simp only [List.mem_cons, List.not_mem_nil, or_false] at hrow
      obtain h | h := hrow <;> simp only [decodeOpcode, ← ht, h0, decodeFamily0, ← hn, h]
    · have hrow := hrowE.resolve_left (not_not.2 hE)
      simp only [List.mem_cons, List.not_mem_nil, or_false] at hrow
      obtain h | h := hrow <;> simp only [decodeOpcode, ← ht, hE, decodeFamilyE, ← hn, h, hx]
  · rintro (h5 | h9) hx hy
    · simp only [decodeOpcode, ← ht, h5, hx, hy]
    · simp only [decodeOpcode, ← ht, h9, hx, hy]

end Sys2Proof
end

section
/-! PROOFS. CALL and RET (41_flow.md R70, R72, R78). -/

namespace Sys2Proof.Machine

/-! ### What the handlers answer -/

theorem exec_call_of_lt {s : State} (nnn : Imm12) (h : s.sp.val < 16) :
    exec (.call nnn) s = .next { s with
      stack := s.stack.set s.sp.val s.pc, sp := ⟨s.sp.val + 1, by omega⟩, pc := immAddress nnn } := by
  rw [exec, execCall, State.pushReturn_of_lt h]; rfl

theorem exec_call_of_full {s : State} (nnn : Imm12) (h : s.sp.val = 16) :
    exec (.call nnn) s = .next (s.raise (.stackOverflow s.opcodeAddress)) := by
  rw [exec, execCall, State.pushReturn_of_full h]

theorem exec_ret_of_ne {s : State} (h : s.sp.val ≠ 0) :
    exec .ret s = .next { s with sp := ⟨s.sp.val - 1, by omega⟩, pc := s.stack[s.sp.val - 1] } := by
  rw [exec, execRet, State.popReturn_of_ne h]

theorem exec_ret_of_empty {s : State} (h : s.sp.val = 0) :
    exec .ret s = .next (s.raise (.stackUnderflow s.opcodeAddress)) := by
  rw [exec, execRet, State.popReturn_of_empty h]

/-- A stack that is not full has room for one more entry. -/
theorem State.sp_lt_of_ne {s : State} (h : s.sp.val ≠ 16) : s.sp.val < 16 := by
  have := s.sp.isLt
  omega

/-! ### The obligations -/

/-- Settles O22: a push below the capacity writes one entry, SP and PC; at the capacity CALL raises. -/
theorem callPushesTheAdvancedPc : Obligations.CallPushesTheAdvancedPc := by
  refine ⟨fun _ => decodeOpcode_call, fun nnn s hne => ?_, fun nnn s hfull => exec_call_of_full nnn hfull⟩
  have hlt := State.sp_lt_of_ne hne
  refine ⟨_, exec_call_of_lt nnn hlt, Vector.getElem?_set_self hlt, fun j hj => Vector.getElem?_set_ne hlt hj.symm, rfl,
    immAddress_toNat nnn, ?_⟩
  apply UnchangedExcept.of_fields <;> simp

/-- Settles O23: a pop of a stack that is not empty writes SP and PC; on an empty stack RET raises. -/
theorem returnPopsTheStack : Obligations.ReturnPopsTheStack := by
  refine ⟨fun _ => decodeOpcode_ret, fun s hne => ?_, fun s hempty => exec_ret_of_empty hempty⟩
  refine ⟨_, exec_ret_of_ne hne, Nat.sub_add_cancel (Nat.pos_of_ne_zero hne), ?_, ?_⟩
  · exact Vector.getElem?_eq_getElem _
  · apply UnchangedExcept.of_fields <;> simp

/-- Settles O25: the entry that RET pops is the one that CALL pushed, at the SP before the CALL. -/
theorem returnResumesAfterTheCall : Obligations.ReturnResumesAfterTheCall := by
  intro nnn s u w hne hcall hstack hsp
  obtain ⟨u', hu', hentry, -, hspu, -, -⟩ := callPushesTheAdvancedPc.2.1 nnn s hne
  obtain rfl : u' = u := Host.Outcome.next.inj (hu'.symm.trans hcall)
  obtain ⟨t, ht, hspt, hpop, hframe⟩ := returnPopsTheStack.2.1 w (by rw [hsp, hspu]; omega)
  have hspts : t.sp.val = s.sp.val := by rw [hsp, hspu] at hspt; omega
  refine ⟨t, ht, ?_, Fin.ext hspts, hframe⟩
  rw [hstack, hspts, hentry] at hpop
  exact (Option.some.inj hpop).symm

end Sys2Proof.Machine
end

section
/-! PROOFS. Arithmetic, shifts and random (42_alu.md R85 to R90, R93): each writes VX and VF, the later write standing
when they are one register. -/

namespace Sys2Proof.Machine

/-! ### What the handlers answer -/

theorem exec_add (x y : Reg) (s : State) : exec (.add x y) s =
    .next ((s.setReg regVF (carryFlag (s.reg x) (s.reg y))).setReg x (s.reg x + s.reg y)) := rfl

theorem exec_sub (x y : Reg) (s : State) : exec (.sub x y) s =
    .next ((s.setReg regVF (greaterFlag (s.reg x) (s.reg y))).setReg x (s.reg x - s.reg y)) := rfl

theorem exec_shr (x y : Reg) (s : State) : exec (.shr x y) s =
    .next ((s.setReg x (s.reg y >>> 1)).setReg regVF (evenFlag (s.reg y))) := rfl

theorem exec_subn (x y : Reg) (s : State) : exec (.subn x y) s =
    .next ((s.setReg regVF (greaterFlag (s.reg x) (s.reg y))).setReg x (s.reg y - s.reg x)) := rfl

theorem exec_shl (x y : Reg) (s : State) : exec (.shl x y) s =
    .next ((s.setReg regVF (highBitFlag (s.reg y))).setReg x (s.reg y <<< 1)) := rfl

theorem exec_rnd (x : Reg) (nn : Byte) (s : State) : exec (.rnd x nn) s =
    .next (s.consumeDraw.setReg x (s.rndInput &&& nn)) := rfl

/-! ### The flags and the results as numbers -/

theorem flagByte_decide (p : Prop) [Decidable p] : flagByte (decide p) = if p then 1 else 0 := by
  simp [flagByte]

theorem carryFlag_eq (a b : Byte) : carryFlag a b = if 255 < a.toNat + b.toNat then 1 else 0 := flagByte_decide _

theorem greaterFlag_eq (a b : Byte) : greaterFlag a b = if b.toNat < a.toNat then 1 else 0 := flagByte_decide _

theorem evenFlag_eq (b : Byte) : evenFlag b = if b.toNat % 2 = 0 then 1 else 0 := by
  have hbit : (!b.getLsbD 0) = decide (b.toNat % 2 = 0) := by
    rw [BitVec.getLsbD, Nat.testBit_zero, ← decide_not, decide_eq_decide]; omega
  rw [evenFlag, hbit, flagByte_decide]

theorem highBitFlag_eq (b : Byte) : highBitFlag b = if 128 ≤ b.toNat then 1 else 0 := by
  have hbit : b.getLsbD 7 = decide (128 ≤ b.toNat) := by
    have := b.isLt
    rw [BitVec.getLsbD, Nat.testBit_eq_decide_div_mod_eq, decide_eq_decide]; omega
  rw [highBitFlag, hbit, flagByte_decide]

theorem byte_sub_toNat (a b : Byte) : (a - b).toNat = (a.toNat + 256 - b.toNat) % 256 := by
  have := b.isLt
  rw [BitVec.toNat_sub]
  congr 1; omega

theorem byte_shiftRight_toNat (b : Byte) : (b >>> 1).toNat = b.toNat / 2 := by
  rw [BitVec.toNat_ushiftRight, Nat.shiftRight_eq_div_pow, Nat.pow_one]

theorem byte_shiftLeft_toNat (b : Byte) : (b <<< 1).toNat = 2 * b.toNat % 256 := by
  rw [BitVec.toNat_shiftLeft, Nat.shiftLeft_eq, Nat.pow_one, Nat.mul_comm]

/-! ### The two register writes -/

/-- The order VF, VX: VX holds the result also when it is VF. -/
theorem State.setFlag_setReg_spec (s : State) (x : Reg) (flag b : Byte) :
    (x ≠ 15 → ((s.setReg regVF flag).setReg x b).reg 15 = flag) ∧
    (∀ r, r ≠ x → r ≠ 15 → ((s.setReg regVF flag).setReg x b).reg r = s.reg r) ∧
    UnchangedExcept [.regs] s ((s.setReg regVF flag).setReg x b) := by
  refine ⟨fun hx => ?_, fun r hx hf => ?_, ?_⟩
  · rw [State.reg_setReg_of_ne _ _ hx.symm]
    exact State.reg_setReg_self s regVF flag
  · rw [State.reg_setReg_of_ne _ _ hx, State.reg_setReg_of_ne _ (x := regVF) _ hf]
  · apply UnchangedExcept.of_fields <;> simp

/-- The order VX, VF: VF holds the flag also when it is VX. -/
theorem State.setReg_setFlag_spec (s : State) (x : Reg) (flag b : Byte) :
    (x ≠ 15 → ((s.setReg x b).setReg regVF flag).reg x = b) ∧
    ((s.setReg x b).setReg regVF flag).reg 15 = flag ∧
    (∀ r, r ≠ x → r ≠ 15 → ((s.setReg x b).setReg regVF flag).reg r = s.reg r) ∧
    UnchangedExcept [.regs] s ((s.setReg x b).setReg regVF flag) := by
  refine ⟨fun hx => ?_, State.reg_setReg_self _ regVF flag, fun r hx hf => ?_, ?_⟩
  · rw [State.reg_setReg_of_ne _ (x := regVF) _ hx, State.reg_setReg_self]
  · rw [State.reg_setReg_of_ne _ (x := regVF) _ hf, State.reg_setReg_of_ne _ _ hx]
  · apply UnchangedExcept.of_fields <;> simp

/-- What a draw changes besides VX. -/
theorem State.consumeDraw_setReg_frame (s : State) (x : Reg) (b : Byte) :
    UnchangedExcept [.regs, .random] s (s.consumeDraw.setReg x b) := by
  apply UnchangedExcept.of_fields <;> simp

/-- Writing a register's own value changes no register. -/
theorem State.reg_setReg_own (s : State) (x r : Reg) : (s.setReg x (s.reg x)).reg r = s.reg r := by
  rw [State.reg_setReg]
  split
  · next h => rw [h]
  · rfl

/-! ### The obligations -/

/-- Settles O30: VF, then VX, of a sum of bytes, which is modulo 256. -/
theorem addSetsTheCarry : Obligations.AddSetsTheCarry := by
  refine ⟨fun _ => decodeOpcode_add, fun x y s => ⟨_, exec_add x y s, ?_, ?_⟩⟩
  · rw [State.reg_setReg_self, BitVec.toNat_add]
  · rw [carryFlag_eq]; exact s.setFlag_setReg_spec x _ _

/-- Settles O31: VF, then VX, of a difference of bytes, which is modulo 256. -/
theorem subSetsTheStrictFlag : Obligations.SubSetsTheStrictFlag := by
  refine ⟨fun _ => decodeOpcode_sub, fun x y s => ⟨_, exec_sub x y s, ?_, ?_⟩⟩
  · rw [State.reg_setReg_self, byte_sub_toNat]
  · rw [greaterFlag_eq]; exact s.setFlag_setReg_spec x _ _

/-- Settles O32: VX, then VF, so the flag stands also for X = 15. -/
theorem shiftRightReadsVyAndFlagsEven : Obligations.ShiftRightReadsVyAndFlagsEven := by
  refine ⟨fun _ => decodeOpcode_shr, fun x y s => ⟨_, exec_shr x y s, ?_⟩⟩
  rw [evenFlag_eq]
  obtain ⟨hresult, hflagAndFrame⟩ := s.setReg_setFlag_spec x (if (s.reg y).toNat % 2 = 0 then 1 else 0) (s.reg y >>> 1)
  exact ⟨fun hx => by rw [hresult hx, byte_shiftRight_toNat], hflagAndFrame⟩

/-- Settles O33: the difference of SUB with its operands exchanged, the flag of SUB. -/
theorem subnReversesOnlyTheDifference : Obligations.SubnReversesOnlyTheDifference := by
  refine ⟨fun _ => decodeOpcode_subn, fun x y s => ⟨_, exec_subn x y s, ?_, ?_⟩⟩
  · rw [State.reg_setReg_self, byte_sub_toNat]
  · rw [greaterFlag_eq]; exact s.setFlag_setReg_spec x _ _

/-- Settles O34: VF, then VX; bit 7 is set exactly from 128 on. -/
theorem shiftLeftReadsVyAndFlagsBitSeven : Obligations.ShiftLeftReadsVyAndFlagsBitSeven := by
  refine ⟨fun _ => decodeOpcode_shl, fun x y s => ⟨_, exec_shl x y s, ?_, ?_⟩⟩
  · rw [State.reg_setReg_self, byte_shiftLeft_toNat]
  · rw [highBitFlag_eq]; exact s.setFlag_setReg_spec x _ _

/-- Settles O35: one draw is consumed, and its byte masked. -/
theorem randomIsTheMaskedDraw : Obligations.RandomIsTheMaskedDraw := by
  refine ⟨fun _ => decodeOpcode_rnd, fun x nn s => ⟨_, exec_rnd x nn s, fun b bs hb => ?_, fun k hk => ?_, rfl, rfl,
    fun r hr => State.reg_setReg_of_ne s.consumeDraw _ hr, s.consumeDraw_setReg_frame x _⟩⟩
  · rw [State.reg_setReg_self, State.rndInput, hb]
  · rw [State.reg_setReg_self, BitVec.getLsbD_and, hk, Bool.and_false]

/-- Settles O36: each instruction's own statement, read at X = Y. -/
theorem sameRegisterOperands : Obligations.SameRegisterOperands := by
  intro x s hx
  refine ⟨?_, ?_, ?_, ?_, ?_, ?_, ?_⟩
  · rintro i (rfl | rfl | rfl)
    · exact ⟨_, exec_mov x x s, s.reg_setReg_own x⟩
    · refine ⟨_, exec_or x x s, fun r => ?_⟩
      rw [BitVec.or_self, s.reg_setReg_own]
    · refine ⟨_, exec_and x x s, fun r => ?_⟩
      rw [BitVec.and_self, s.reg_setReg_own]
  · refine ⟨_, exec_xor x x s, ?_, s.reg_setReg_of_ne _ hx.symm⟩
    exact (State.reg_setReg_self ..).trans BitVec.xor_self
  · rintro i (rfl | rfl)
    · obtain ⟨t, ht, hsum, hflag, -⟩ := addSetsTheCarry.2 x x s
      refine ⟨t, ht, by rw [hsum, Nat.two_mul], (hflag hx).trans (if_congr ?_ rfl rfl)⟩
      omega
    · obtain ⟨t, ht, hshift, hflag, -⟩ := shiftLeftReadsVyAndFlagsBitSeven.2 x x s
      exact ⟨t, ht, hshift, hflag hx⟩
  · have hzero : ((s.reg x).toNat + 256 - (s.reg x).toNat) % 256 = 0 := by rw [Nat.add_sub_cancel_left]
    rintro i (rfl | rfl)
    · obtain ⟨t, ht, hdiff, hflag, -⟩ := subSetsTheStrictFlag.2 x x s
      exact ⟨t, ht, BitVec.eq_of_toNat_eq (hdiff.trans hzero), (hflag hx).trans (if_neg (lt_irrefl _))⟩
    · obtain ⟨t, ht, hdiff, hflag, -⟩ := subnReversesOnlyTheDifference.2 x x s
      exact ⟨t, ht, BitVec.eq_of_toNat_eq (hdiff.trans hzero), (hflag hx).trans (if_neg (lt_irrefl _))⟩
  · obtain ⟨t, ht, hhalf, hflag, -⟩ := shiftRightReadsVyAndFlagsEven.2 x x s
    exact ⟨t, ht, hhalf hx, hflag⟩
  · exact ⟨_, exec_ser x x s, (s.skipIf_beq_spec (s.reg x) (s.reg x)).2.1 rfl⟩
  · exact ⟨_, exec_sner x x s, (s.skipIf_bne_spec (s.reg x) (s.reg x)).2.2 rfl⟩

end Sys2Proof.Machine
end

section
/-! PROOFS. Index and memory instructions (43_index_memory.md R96, R98 to R100, 20_memory.md R42): a store or load whose
addresses all exist, and the fault of one whose addresses do not. -/

namespace Sys2Proof.Machine

/-! ### What the handlers answer -/

theorem exec_addix (x : Reg) (s : State) : exec (.addix x) s = .next (s.setIndex (s.i + extendByte (s.reg x))) := rfl

theorem exec_bcd_of_le {s : State} (x : Reg) (h : s.i.toNat + 3 ≤ 4096) :
    exec (.bcd x) s = .next (s.setMem (s.mem.writeMany s.i.toNat (bcdDigits (s.reg x)))) := by
  have hw : memWrite s.mem s.base (bcdDigits (s.reg x)) = .ok _ := memWrite_eq_ok.2 ⟨h, rfl⟩
  rw [exec, execBcd, hw]; rfl

theorem exec_bcd_of_lt {s : State} (x : Reg) (h : 4096 < s.i.toNat + 3) :
    exec (.bcd x) s = .next (s.raise (.addressOutOfRange (if 4096 ≤ s.i.toNat then s.i.toNat else 4096))) := by
  have hw : memWrite s.mem s.base (bcdDigits (s.reg x)) = .error _ := memWrite_eq_error.2 ⟨h, rfl⟩
  rw [exec, execBcd, hw]; rfl

theorem exec_dump_of_le {s : State} (x : Reg) (h : s.i.toNat + x.val + 1 ≤ 4096) :
    exec (.dump x) s =
      .next ((s.setMem (s.mem.writeMany s.i.toNat (s.firstRegs x))).setIndex (s.indexPast x)) := by
  have hw : memWrite s.mem s.base (s.firstRegs x) = .ok _ :=
    memWrite_eq_ok.2 ⟨by rwa [State.length_firstRegs], rfl⟩
  rw [exec, execDump, hw]; rfl

theorem exec_dump_of_lt {s : State} (x : Reg) (h : 4096 < s.i.toNat + x.val + 1) :
    exec (.dump x) s = .next (s.raise (.addressOutOfRange (if 4096 ≤ s.i.toNat then s.i.toNat else 4096))) := by
  have hw : memWrite s.mem s.base (s.firstRegs x) = .error _ :=
    memWrite_eq_error.2 ⟨by rwa [State.length_firstRegs], rfl⟩
  rw [exec, execDump, hw]; rfl

theorem exec_load_of_le {s : State} (x : Reg) (h : s.i.toNat + x.val + 1 ≤ 4096) :
    exec (.load x) s =
      .next ((s.setRegs (loadRegs s.v 0 (s.mem.readMany s.i.toNat (regCount x)))).setIndex (s.indexPast x)) := by
  have hr : memRead s.mem s.base (regCount x) = .ok _ := memRead_eq_ok.2 ⟨h, rfl⟩
  rw [exec, execLoad, hr]; rfl

theorem exec_load_of_lt {s : State} (x : Reg) (h : 4096 < s.i.toNat + x.val + 1) :
    exec (.load x) s = .next (s.raise (.addressOutOfRange (if 4096 ≤ s.i.toNat then s.i.toNat else 4096))) := by
  have hr : memRead s.mem s.base (regCount x) = .error _ := memRead_eq_error.2 ⟨h, rfl⟩
  rw [exec, execLoad, hr]; rfl

/-! ### Index, stored bytes and loaded registers -/

/-- I past the bytes of a DUMP or LOAD in range is at most 4096 and fits. -/
theorem State.indexPast_toNat {s : State} {x : Reg} (h : s.i.toNat + x.val ≤ 4095) :
    (s.indexPast x).toNat = s.i.toNat + x.val + 1 := by
  show (BitVec.ofNat 16 (s.i.toNat + (x.val + 1))).toNat = _
  rw [BitVec.toNat_ofNat, Nat.mod_eq_of_lt (by omega), Nat.add_assoc]

/-- Each digit of a byte fits in a byte. -/
theorem bcdDigits_toNat (b : Byte) :
    (bcdDigits b).map BitVec.toNat = [b.toNat / 100, b.toNat / 10 % 10, b.toNat % 10] := by
  have := b.isLt
  simp only [bcdDigits, List.map_cons, List.map_nil, BitVec.toNat_ofNat, List.cons.injEq, and_true]
  omega

/-- What a store of `bs` from `i` leaves at every address. -/
theorem Memory.read_store {m : Memory} {i : Nat} {bs : List Byte} (hm : m.wf) (h : i + bs.length ≤ 4096) :
    (∀ j < bs.length, (m.writeMany i bs).read (i + j) = bs.getD j 0) ∧
    ∀ a, a < i ∨ i + bs.length ≤ a → (m.writeMany i bs).read a = m.read a := by
  refine ⟨fun j hj => ?_, fun a ha => ?_⟩
  · rw [read_writeMany hm h, if_pos (by omega), Nat.add_sub_cancel_left]
  · rw [read_writeMany hm h, if_neg (by omega)]

theorem reg_loadRegs_readMany (s : State) (i n : Nat) (r : Reg) :
    (s.setRegs (loadRegs s.v 0 (s.mem.readMany i n))).reg r =
      if r.val < n then s.readByte (i + r.val) else s.reg r := by
  show (loadRegs s.v 0 (s.mem.readMany i n))[r.val] = _
  rw [getElem_loadRegs r.val r.isLt, Memory.length_readMany]
  by_cases h : r.val < n
  · rw [if_pos (by omega), if_pos h, Nat.sub_zero, Memory.getD_readMany _ _ _ _ h]; rfl
  · rw [if_neg (by omega), if_neg h]; rfl

theorem State.setMem_frame (s : State) (m : Memory) : UnchangedExcept [.memory] s (s.setMem m) := by
  apply UnchangedExcept.of_fields <;> simp

theorem State.setMem_setIndex_frame (s : State) (m : Memory) (w : Word) :
    UnchangedExcept [.memory, .index] s ((s.setMem m).setIndex w) := by
  apply UnchangedExcept.of_fields <;> simp

theorem State.setRegs_setIndex_frame (s : State) (v : Vector Byte 16) (w : Word) :
    UnchangedExcept [.regs, .index] s ((s.setRegs v).setIndex w) := by
  apply UnchangedExcept.of_fields <;> simp

/-! ### The obligations -/

/-- Settles O38: one write to I, of a 16-bit sum. -/
theorem addToIndexNeverFaults : Obligations.AddToIndexNeverFaults := by
  refine ⟨fun _ => decodeOpcode_addix, fun x s => ⟨_, exec_addix x s, ?_, s.setIndex_frame _⟩⟩
  rw [State.setIndex_i, BitVec.toNat_add, extendByte_toNat]

/-- Settles O39: in range the store is of the three digits; out of range nothing is written. -/
theorem bcdStoresThreeDigits : Obligations.BcdStoresThreeDigits := by
  refine ⟨fun _ => decodeOpcode_bcd, fun x s hm h => ?_, fun x s h => exec_bcd_of_lt x (by omega)⟩
  have hlen : s.i.toNat + (bcdDigits (s.reg x)).length ≤ 4096 := by rw [length_bcdDigits]; omega
  obtain ⟨hstored, hother⟩ := Memory.read_store hm hlen
  have hdigits := bcdDigits_toNat (s.reg x)
  simp only [bcdDigits, List.map_cons, List.map_nil, List.cons.injEq, and_true] at hdigits
  obtain ⟨hundreds, tens, ones⟩ := hdigits
  exact ⟨_, exec_bcd_of_le x (by omega), (congrArg _ (hstored 0 (by simp))).trans hundreds,
    (congrArg _ (hstored 1 (by simp))).trans tens, (congrArg _ (hstored 2 (by simp))).trans ones,
    fun a ha => hother a (by rw [length_bcdDigits]; omega), s.setMem_frame _⟩

/-- Settles O40: in range the store is of the first registers; out of range nothing is written. -/
theorem dumpStoresTheFirstRegisters : Obligations.DumpStoresTheFirstRegisters := by
  refine ⟨fun _ => decodeOpcode_dump, fun x s hm h => ?_, fun x s h => exec_dump_of_lt x (by omega)⟩
  have hlen : s.i.toNat + (s.firstRegs x).length ≤ 4096 := by rw [State.length_firstRegs]; omega
  obtain ⟨hstored, hother⟩ := Memory.read_store hm hlen
  refine ⟨_, exec_dump_of_le x (by omega), fun r hr => ?_, fun a ha => hother a ?_, State.indexPast_toNat h,
    s.setMem_setIndex_frame _ _⟩
  · have hrx : r.val ≤ x.val := hr
    exact (hstored r.val (by rw [State.length_firstRegs]; omega)).trans (s.getD_firstRegs x r.val hrx)
  · rw [State.length_firstRegs]; omega

/-- Settles O41: in range the first registers are loaded; out of range nothing is written. -/
theorem loadFillsTheFirstRegisters : Obligations.LoadFillsTheFirstRegisters := by
  refine ⟨fun _ => decodeOpcode_load, fun x s h => ?_, fun x s h => exec_load_of_lt x (by omega)⟩
  refine ⟨_, exec_load_of_le x (by omega), fun r hr => ?_, fun r hr => ?_, State.indexPast_toNat h,
    s.setRegs_setIndex_frame _ _⟩
  · have hrx : r.val < regCount x := Nat.lt_succ_of_le hr
    exact (reg_loadRegs_readMany s _ _ r).trans (if_pos hrx)
  · have hrx : ¬ r.val < regCount x := Nat.not_lt.2 hr
    exact (reg_loadRegs_readMany s _ _ r).trans (if_neg hrx)

/-- Settles O42: LOAD reads the bytes that DUMP stored, and both move I alike. -/
theorem dumpThenLoadGivesTheRegistersBack : Obligations.DumpThenLoadGivesTheRegistersBack := by
  intro x s u w hm h hdump hbytes hi
  obtain ⟨u', hu', hstored, -, hiu, -⟩ := dumpStoresTheFirstRegisters.2.1 x s hm h
  obtain rfl : u' = u := Host.Outcome.next.inj (hu'.symm.trans hdump)
  obtain ⟨t, ht, hloaded, habove, hit, -⟩ := loadFillsTheFirstRegisters.2.1 x w (by rwa [hi])
  refine ⟨t, ht, fun r hr => ?_, habove, BitVec.eq_of_toNat_eq ?_⟩
  · rw [hloaded r hr, hbytes, hi, hstored r hr]
  · rw [hit, hi, hiu]

/-- Settles O43: the fetch reads the two stored bytes, the lower address first. -/
theorem storesReachTheNextFetch : Obligations.StoresReachTheNextFetch := by
  intro x s t r q a hm h hdump hq hqx ha
  obtain ⟨t', ht', hstored, -⟩ := dumpStoresTheFirstRegisters.2.1 x s hm h
  obtain rfl : t' = t := Host.Outcome.next.inj (ht'.symm.trans hdump)
  have hqx' : q.val ≤ x.val := hqx
  have hhigh : t'.readByte a.toNat = s.reg r := by
    rw [ha]; exact hstored r (Fin.le_def.2 (by omega))
  have hlow : t'.readByte (a.toNat + 1) = s.reg q := by
    rw [ha, Nat.add_assoc, ← hq]; exact hstored q hqx
  refine fetchOpcode_eq_ok.2 ⟨show a.toNat + 2 ≤ 4096 by omega, ?_⟩
  rw [← hhigh, ← hlow]; rfl

end Sys2Proof.Machine
end

section
/-! PROOFS. DRW (44_display.md R107 to R109): the dense indices of a sprite's set bits in loop order, which of them each
edge mode lets through, and what the draw then toggles. -/

namespace Sys2Proof.Machine

open Sys2Proof.Config (DrawEdge)

/-! ### The dense indices of the set bits -/

/-- The offsets (r, c) of the set bits of the sprite of `n` rows at I, in loop order. -/
def State.spriteOffsets (s : State) (n : RowCount) : List (Nat × Nat) := setOffsets 0 (s.mem.readMany s.i.toNat n.val)

/-- The dense index of the set bit at an offset, for a draw at VX, VY. -/
def State.bitIndex (s : State) (x y : Reg) (p : Nat × Nat) : Nat := 64 * drawRow s y p.1 + drawColumn s x p.2

theorem mem_spriteOffsets {s : State} {n : RowCount} {p : Nat × Nat} :
    p ∈ s.spriteOffsets n ↔ p.1 < n.val ∧ p.2 < 8 ∧ spriteBit s p.1 p.2 = true := mem_setOffsets_readMany

theorem mem_bitIndices {s : State} {x y : Reg} {n : RowCount} {k : Nat} :
    k ∈ (s.spriteOffsets n).map (s.bitIndex x y) ↔ SetBitAt s x y n k := by
  simp only [List.mem_map, mem_spriteOffsets, SetBitAt, State.bitIndex, Prod.exists, and_assoc, eq_comm (a := k)]

/-- A row is 64 cells and a sprite's row 8 bits, so the loop order is the order of the dense indices. -/
theorem pairwise_bitIndices (s : State) (x y : Reg) (n : RowCount) :
    ((s.spriteOffsets n).map (s.bitIndex x y)).Pairwise (· < ·) := by
  rw [List.pairwise_map]
  refine pairwise_setOffsets.imp_of_mem fun {p q} hp hq h => ?_
  have hpc := (mem_spriteOffsets.1 hp).2.1
  have hqc := (mem_spriteOffsets.1 hq).2.1
  simp only [State.bitIndex, drawRow, drawColumn]
  omega

/-! ### The mapping of all set bits to cells -/

theorem drawCells_of_inMemory {s : State} {n : RowCount} (h : SpriteInMemory s n) (e : DrawEdge) (x y : Reg) :
    drawCells e (s.reg x) (s.reg y) n s =
      cellsOf e ((s.reg x).toNat % 64) ((s.reg y).toNat % 32) (s.spriteOffsets n) := by
  rw [drawCells, spriteRows_of_inMemory h]; rfl

theorem drawCells_of_not_inMemory {s : State} {n : RowCount} (h : ¬ SpriteInMemory s n) (e : DrawEdge) (x y : Reg) :
    drawCells e (s.reg x) (s.reg y) n s =
      .error (.addressOutOfRange (if 4096 ≤ s.i.toNat then s.i.toNat else 4096)) := by
  rw [drawCells, spriteRows_of_not_inMemory h]

/-- When the edge mode maps every set bit to its dense index, these are the cells. -/
theorem drawCells_eq_bitIndices {s : State} {n : RowCount} {e : DrawEdge} {x y : Reg} (h : SpriteInMemory s n)
    (hcell : ∀ p ∈ s.spriteOffsets n, cellOf e (drawColumn s x p.2) (drawRow s y p.1) = .ok (some (s.bitIndex x y p))) :
    drawCells e (s.reg x) (s.reg y) n s = .ok ((s.spriteOffsets n).map (s.bitIndex x y)) := by
  rw [drawCells_of_inMemory h]
  exact cellsOf_eq_map hcell

/-- A fault of the whole mapping is the fault of one of the set bits. -/
theorem exists_cellOf_error {e : DrawEdge} {x0 y0 : Nat} {f : Fault} : ∀ {ps : List (Nat × Nat)},
    cellsOf e x0 y0 ps = .error f → ∃ p ∈ ps, cellOf e (x0 + p.2) (y0 + p.1) = .error f
  | (r, c) :: ps, h => by
    cases hc : cellOf e (x0 + c) (y0 + r) with
    | error f' =>
      rw [cellsOf_cons_error hc] at h
      cases h
      exact ⟨(r, c), List.mem_cons_self, hc⟩
    | ok k =>
      cases hs : cellsOf e x0 y0 ps with
      | error f' =>
        rw [cellsOf_cons_error_later hc hs] at h
        obtain ⟨p, hp, hpf⟩ := exists_cellOf_error (hs.trans h)
        exact ⟨p, List.mem_cons_of_mem _ hp, hpf⟩
      | ok ks => rw [cellsOf_cons_ok hc hs] at h; cases h

/-- A set bit that faults makes the whole mapping fault. -/
theorem cellsOf_error_of_mem {e : DrawEdge} {x0 y0 : Nat} {p : Nat × Nat} {f : Fault}
    (hp : cellOf e (x0 + p.2) (y0 + p.1) = .error f) : ∀ {ps : List (Nat × Nat)}, p ∈ ps →
    ∃ f', cellsOf e x0 y0 ps = .error f'
  | (r, c) :: ps, hmem => by
    cases hc : cellOf e (x0 + c) (y0 + r) with
    | error f' => exact ⟨f', cellsOf_cons_error hc⟩
    | ok k =>
      obtain rfl | htail := List.mem_cons.1 hmem
      · rw [hc] at hp; cases hp
      · obtain ⟨f', hs⟩ := cellsOf_error_of_mem hp htail
        exact ⟨f', cellsOf_cons_error_later hc hs⟩

/-- Under `linear` the first fault in an ascending loop is that of the lowest index beyond the display. -/
theorem cellsOf_linear_error {x0 y0 k : Nat} : ∀ {ps : List (Nat × Nat)},
    (ps.map fun p => 64 * (y0 + p.1) + (x0 + p.2)).Pairwise (· < ·) →
    k ∈ ps.map (fun p => 64 * (y0 + p.1) + (x0 + p.2)) → 2048 ≤ k →
    (∀ k' ∈ ps.map (fun p => 64 * (y0 + p.1) + (x0 + p.2)), 2048 ≤ k' → k ≤ k') →
    cellsOf .linear x0 y0 ps = .error (.displayOutOfRange k)
  | (r, c) :: ps, hsorted, hmem, hk, hlowest => by
    simp only [List.map_cons, List.pairwise_cons, List.mem_cons, forall_eq_or_imp] at hsorted hmem hlowest
    obtain ⟨hfirst, hsorted⟩ := hsorted
    obtain ⟨hlowestHead, hlowest⟩ := hlowest
    by_cases hhead : 64 * (y0 + r) + (x0 + c) < 2048
    · have hcell : cellOf .linear (x0 + c) (y0 + r) = .ok _ := (cellOf_linear _ _).trans (if_pos hhead)
      have htail := hmem.resolve_left (by omega)
      exact cellsOf_cons_error_later hcell (cellsOf_linear_error hsorted htail hk hlowest)
    · have hcell : cellOf .linear (x0 + c) (y0 + r) = .error _ := (cellOf_linear _ _).trans (if_neg hhead)
      have hle : k ≤ 64 * (y0 + r) + (x0 + c) := hlowestHead (by omega)
      obtain rfl | htail := hmem
      · exact cellsOf_cons_error hcell
      · exact absurd (hfirst k htail) (by omega)

/-! ### What the draw answers -/

theorem exec_drw (x y : Reg) (n : RowCount) (s : State) :
    exec (.drw x y n) s = .next (drawSprite .linear x y n s) := rfl

theorem drawSprite_of_ok {e : DrawEdge} {x y : Reg} {n : RowCount} {s : State} {cells : List Nat}
    (h : drawCells e (s.reg x) (s.reg y) n s = .ok cells) :
    drawSprite e x y n s = (s.setDisplay (toggleCells s.fb false cells).1).setReg regVF
      (collisionFlag (toggleCells s.fb false cells).2) := by
  rw [drawSprite, h]; rfl

theorem drawSprite_of_error {e : DrawEdge} {x y : Reg} {n : RowCount} {s : State} {f : Fault}
    (h : drawCells e (s.reg x) (s.reg y) n s = .error f) : drawSprite e x y n s = s.raise f := by
  rw [drawSprite, h]; rfl

theorem State.setDisplay_setReg_frame (s : State) (d : Framebuffer) (x : Reg) (b : Byte) :
    UnchangedExcept [.regs, .display] s ((s.setDisplay d).setReg x b) := by
  apply UnchangedExcept.of_fields <;> simp

/-- Under `linear`, with every set bit on the display, the draw toggles the set bits' cells and flags a lit one. -/
theorem drawSprite_linear_spec {x y : Reg} {n : RowCount} {s : State} (h : SpriteInMemory s n)
    (hgrid : ∀ k, SetBitAt s x y n k → k < 2048) :
    (∀ k, SetBitAt s x y n k → (drawSprite .linear x y n s).fb.cell k = !s.fb.cell k) ∧
    (∀ k, ¬ SetBitAt s x y n k → (drawSprite .linear x y n s).fb.cell k = s.fb.cell k) ∧
    ((∃ k, SetBitAt s x y n k ∧ s.fb.cell k = true) → (drawSprite .linear x y n s).reg 15 = 1) ∧
    ((∀ k, SetBitAt s x y n k → s.fb.cell k = false) → (drawSprite .linear x y n s).reg 15 = 0) ∧
    (∀ r, r ≠ 15 → (drawSprite .linear x y n s).reg r = s.reg r) ∧
    UnchangedExcept [.regs, .display] s (drawSprite .linear x y n s) := by
  have hbelow : ∀ k ∈ (s.spriteOffsets n).map (s.bitIndex x y), k < 2048 := fun k hk => hgrid k (mem_bitIndices.1 hk)
  have hcells : drawCells .linear (s.reg x) (s.reg y) n s = .ok ((s.spriteOffsets n).map (s.bitIndex x y)) :=
    drawCells_eq_bitIndices h fun p hp =>
      (cellOf_linear _ _).trans (if_pos (hbelow _ (List.mem_map_of_mem hp)))
  have hnodup : ((s.spriteOffsets n).map (s.bitIndex x y)).Nodup := (pairwise_bitIndices s x y n).imp ne_of_lt
  obtain ⟨hcell, hhit⟩ := toggleCells_spec (fb := s.fb) (hit := false) hnodup hbelow
  have hflag (s' : State) (b : Byte) : (s'.setReg regVF b).reg 15 = b := State.reg_setReg_self s' regVF b
  rw [drawSprite_of_ok hcells]
  simp only [hflag, State.setReg_fb, State.setDisplay_fb, hcell, hhit, Bool.false_or]
  refine ⟨fun k hk => ?_, fun k hk => ?_, fun ⟨k, hk, hlit⟩ => ?_, fun hunlit => ?_, fun r hr =>
    State.reg_setReg_of_ne _ (x := regVF) _ hr, s.setDisplay_setReg_frame _ _ _⟩
  · rw [decide_eq_true (mem_bitIndices.2 hk), Bool.xor_true]
  · rw [decide_eq_false (mt mem_bitIndices.1 hk), Bool.xor_false]
  · rw [List.any_eq_true.2 ⟨k, mem_bitIndices.2 hk, hlit⟩]; rfl
  · rw [List.any_eq_false.2 fun k hk => by simp [hunlit k (mem_bitIndices.1 hk)]]; rfl

/-- The set bits of a draw depend on VX, VY, I and memory only. -/
theorem setBitAt_congr {s w : State} {x y : Reg} (n : RowCount) (hi : w.i = s.i)
    (hbytes : ∀ a, w.readByte a = s.readByte a) (hx : w.reg x = s.reg x) (hy : w.reg y = s.reg y) (k : Nat) :
    SetBitAt w x y n k ↔ SetBitAt s x y n k := by
  simp only [SetBitAt, spriteBit, drawRow, drawColumn, hi, hbytes, hx, hy]

/-! ### The obligations -/

/-- Settles O46: the dense indices of the set bits are distinct, so each of their cells is toggled once. -/
theorem drawTogglesExactlyTheSetBits : Obligations.DrawTogglesExactlyTheSetBits :=
  fun x y n s h hgrid => ⟨_, exec_drw x y n s, drawSprite_linear_spec h hgrid⟩

/-- Settles O47: the rows are read before any bit is mapped, and the bits are mapped in ascending order. -/
theorem drawFaultsInOrder : Obligations.DrawFaultsInOrder := by
  refine ⟨fun x y n s h => ?_, fun x y n s k h hk hbeyond hlowest => ?_⟩
  · rw [exec_drw, drawSprite_of_error (drawCells_of_not_inMemory h _ x y)]; rfl
  · have herror : cellsOf .linear ((s.reg x).toNat % 64) ((s.reg y).toNat % 32) (s.spriteOffsets n) =
        .error (.displayOutOfRange k) :=
      cellsOf_linear_error (pairwise_bitIndices s x y n) (mem_bitIndices.2 hk) hbeyond
        fun k' hk' => hlowest k' (mem_bitIndices.1 hk')
    rw [exec_drw, drawSprite_of_error ((drawCells_of_inMemory h _ x y).trans herror)]; rfl

/-- Settles O48: the second draw has the set bits of the first, so each cell is toggled twice or not at all. -/
theorem drawTwiceGivesTheDisplayBack : Obligations.DrawTwiceGivesTheDisplayBack := by
  intro x y n s u w h hgrid hdraw hfb hi hbytes hx hy
  have hbits := setBitAt_congr n hi hbytes hx hy
  have hw : SpriteInMemory w n := by rwa [SpriteInMemory, hi]
  obtain ⟨u', hu', hon, hoff, -⟩ := drawTogglesExactlyTheSetBits x y n s h hgrid
  obtain rfl : u' = u := Host.Outcome.next.inj (hu'.symm.trans hdraw)
  obtain ⟨t, ht, hon', hoff', hlit, hunlit, -⟩ :=
    drawTogglesExactlyTheSetBits x y n w hw fun k hk => hgrid k ((hbits k).1 hk)
  refine ⟨t, ht, Framebuffer.ext_cell fun k => ?_, fun ⟨k, hk, hdark⟩ => hlit ⟨k, (hbits k).2 hk, ?_⟩,
    fun hall => hunlit fun k hk => ?_⟩
  · by_cases hk : SetBitAt s x y n k
    · rw [hon' k ((hbits k).2 hk), hfb, hon k hk, Bool.not_not]
    · rw [hoff' k (mt (hbits k).1 hk), hfb, hoff k hk]
  · rw [hfb, hon k hk, hdark]; rfl
  · have hk := (hbits k).1 hk
    rw [hfb, hon k hk, hall k hk]; rfl

/-- Settles O49: on the grid every mode maps a set bit to its dense index; `wrap` and `clip` map every bit to some cell
or none; `fault` faults at a bit off the grid, and only with the display fault. -/
theorem edgeModesDifferOnlyOffTheGrid : Obligations.EdgeModesDifferOnlyOffTheGrid := by
  intro x y n s hflt h
  have hnone {e : DrawEdge} {cells : List Nat} (hc : drawCells e (s.reg x) (s.reg y) n s = .ok cells) :
      (drawSprite e x y n s).flt = none := by
    rw [drawSprite_of_ok hc]; exact hflt
  have hnever {e : DrawEdge} (hok : ∀ cx cy, ∃ k, cellOf e cx cy = .ok k) : (drawSprite e x y n s).flt = none := by
    obtain ⟨cells, hcells⟩ := cellsOf_ok_of_cellOf_ok hok (s.spriteOffsets n)
    exact hnone ((drawCells_of_inMemory h e x y).trans hcells)
  refine ⟨fun hgrid e => ?_, hnever fun cx cy => ⟨_, cellOf_wrap cx cy⟩, hnever fun cx cy => ⟨_, cellOf_clip cx cy⟩,
    fun ⟨r, c, hr, hc, hset, hoff⟩ => ?_⟩
  · have hcells (e : DrawEdge) :
        drawCells e (s.reg x) (s.reg y) n s = .ok ((s.spriteOffsets n).map (s.bitIndex x y)) :=
      drawCells_eq_bitIndices h fun p hp => by
        obtain ⟨hr, hc, hset⟩ := mem_spriteOffsets.1 hp
        exact cellOf_of_onGrid (hgrid p.1 p.2 hr hc hset) e
    exact ⟨by rw [drawSprite_of_ok (hcells e), drawSprite_of_ok (hcells .linear)], hnone (hcells e)⟩
  · have hoffGrid : ¬ onGrid (drawColumn s x c) (drawRow s y r) = true := by
      rw [onGrid_eq_true]; omega
    have hbit : cellOf .fault (drawColumn s x c) (drawRow s y r) = .error _ :=
      (cellOf_fault _ _).trans (if_neg hoffGrid)
    have hmem : (r, c) ∈ s.spriteOffsets n := mem_spriteOffsets.2 ⟨hr, hc, hset⟩
    obtain ⟨f, hf⟩ := cellsOf_error_of_mem (p := (r, c)) hbit hmem
    obtain ⟨q, -, hq⟩ := exists_cellOf_error hf
    rw [cellOf_fault] at hq
    split at hq
    · cases hq
    · cases hq
      exact ⟨_, by rw [drawSprite_of_error ((drawCells_of_inMemory h _ x y).trans hf)]; rfl⟩

end Sys2Proof.Machine
end

section
/-! PROOFS. SKP and SKNP (45_keypad_timers.md R115, R116, R121). -/

namespace Sys2Proof.Machine

/-! ### What the handlers answer -/

theorem exec_skp_of_le {s : State} {x : Reg} (h : (s.reg x).toNat ≤ 15) :
    exec (.skp x) s = .next (s.skipIf (s.key.getLsbD (s.reg x).toNat)) := by
  rw [exec, execSkp, keyIndex_eq_ok.2 ⟨h, rfl⟩]; rfl

theorem exec_skp_of_lt {s : State} {x : Reg} (h : 15 < (s.reg x).toNat) :
    exec (.skp x) s = .next (s.raise (.keyIndexOutOfRange (s.reg x).toNat)) := by
  rw [exec, execSkp, keyIndex_eq_error.2 ⟨h, rfl⟩]; rfl

theorem exec_sknp_of_le {s : State} {x : Reg} (h : (s.reg x).toNat ≤ 15) :
    exec (.sknp x) s = .next (s.skipIf (!s.key.getLsbD (s.reg x).toNat)) := by
  rw [exec, execSknp, keyIndex_eq_ok.2 ⟨h, rfl⟩]; rfl

theorem exec_sknp_of_lt {s : State} {x : Reg} (h : 15 < (s.reg x).toNat) :
    exec (.sknp x) s = .next (s.raise (.keyIndexOutOfRange (s.reg x).toNat)) := by
  rw [exec, execSknp, keyIndex_eq_error.2 ⟨h, rfl⟩]; rfl

theorem State.skipIf_frame (s : State) (c : Bool) : UnchangedExcept [.pc] s (s.skipIf c) :=
  s.skipIf_eq_setPc c ▸ s.setPc_frame _

/-! ### The obligation -/

/-- Settles O50: the whole VX is tested before the key bit that it names is read. -/
theorem keySkipsFollowTheNamedKey : Obligations.KeySkipsFollowTheNamedKey := by
  refine ⟨fun _ => ⟨decodeOpcode_skp, decodeOpcode_sknp⟩, fun x s h => ⟨?_, ?_⟩,
    fun x s h => ⟨exec_skp_of_lt h, exec_sknp_of_lt h⟩⟩
  · exact ⟨_, exec_skp_of_le h, s.skipIf_frame _, s.skipIf_pc _⟩
  · refine ⟨_, exec_sknp_of_le h, s.skipIf_frame _, (s.skipIf_pc _).trans (if_congr ?_ rfl rfl)⟩
    rw [Bool.not_eq_true']

end Sys2Proof.Machine
end

section
/-! PROOFS. What every handler changes, leaves and raises (40_step_cycle.md R63, 60_exceptions.md R126): the frame of a
handler, the causes of its faults, PC after it. -/

namespace Sys2Proof.Machine

/-! ### Frames in sequence -/

theorem UnchangedExcept.mono {parts parts' : List Part} {s t : State} (h : UnchangedExcept parts s t)
    (hsub : parts ⊆ parts') : UnchangedExcept parts' s t :=
  fun p hp => h p fun hmem => hp (hsub hmem)

theorem Part.same_trans {p : Part} {s t u : State} (h : p.same s t) (h' : p.same t u) : p.same s u := by
  cases p with
  | regs => exact fun r => (h' r).trans (h r)
  | memory => exact fun a => (h' a).trans (h a)
  | display => exact fun k => (h' k).trans (h k)
  | keypad => exact ⟨h'.1.trans h.1, h'.2.1.trans h.2.1, h'.2.2.trans h.2.2⟩
  | random => exact ⟨h'.1.trans h.1, h'.2.trans h.2⟩
  | index | pc | sp | stack | delay | sound | opcode | latch | loaded => exact Eq.trans h' h

theorem UnchangedExcept.trans {parts : List Part} {s t u : State} (h : UnchangedExcept parts s t)
    (h' : UnchangedExcept parts t u) : UnchangedExcept parts s u :=
  fun p hp => Part.same_trans (h p hp) (h' p hp)

theorem State.raise_frame (s : State) (f : Fault) : UnchangedExcept [.latch] s (s.raise f) := by
  apply UnchangedExcept.of_fields <;> simp

/-- A fault-or-result changes what its continuation changes, or the latch. -/
theorem State.orRaise_frame {α : Type} {parts : List Part} {s : State} {k : α → State} (r : Except Fault α)
    (hk : ∀ a, UnchangedExcept parts s (k a)) (hlatch : .latch ∈ parts) : UnchangedExcept parts s (s.orRaise r k) := by
  cases r with
  | ok a => exact hk a
  | error f => exact (s.raise_frame f).mono (by simpa using hlatch)

/-! ### The frame of every handler -/

theorem exec_nop (op : Word) (s : State) : exec (.nop op) s = .next s := rfl

/-- A handler changes only the parts that its rule names. -/
theorem exec_frame {i : Instr} {s t : State} (h : exec i s = .next t) : UnchangedExcept (mayChange i) s t := by
  cases i with
  | cls => cases h; exact s.setDisplay_frame _
  | ret =>
    by_cases hempty : s.sp.val = 0
    · rw [exec_ret_of_empty hempty] at h; cases h
      exact (s.raise_frame _).mono (by simp [mayChange])
    · obtain ⟨t', ht', -, -, hframe⟩ := returnPopsTheStack.2.1 s hempty
      cases ht'.symm.trans h
      exact hframe.mono (by simp [mayChange])
  | call nnn =>
    by_cases hfull : s.sp.val = 16
    · rw [exec_call_of_full nnn hfull] at h; cases h
      exact (s.raise_frame _).mono (by simp [mayChange])
    · obtain ⟨t', ht', -, -, -, -, hframe⟩ := callPushesTheAdvancedPc.2.1 nnn s hfull
      cases ht'.symm.trans h
      exact hframe.mono (by simp [mayChange])
  | jp nnn => cases h; exact s.setPc_frame _
  | jpv0 nnn => cases h; exact s.setPc_frame _
  | se x nn => cases h; exact s.skipIf_frame _
  | sne x nn => cases h; exact s.skipIf_frame _
  | ser x y => cases h; exact s.skipIf_frame _
  | sner x y => cases h; exact s.skipIf_frame _
  | ldi x nn => cases h; exact s.setReg_frame x _
  | addi x nn => cases h; exact s.setReg_frame x _
  | mov x y => cases h; exact s.setReg_frame x _
  | or x y => cases h; exact s.setReg_frame x _
  | and x y => cases h; exact s.setReg_frame x _
  | xor x y => cases h; exact s.setReg_frame x _
  | add x y => cases h; exact (s.setReg_frame regVF _).trans (State.setReg_frame _ x _)
  | sub x y => cases h; exact (s.setReg_frame regVF _).trans (State.setReg_frame _ x _)
  | shr x y => cases h; exact (s.setReg_frame x _).trans (State.setReg_frame _ regVF _)
  | subn x y => cases h; exact (s.setReg_frame regVF _).trans (State.setReg_frame _ x _)
  | shl x y => cases h; exact (s.setReg_frame regVF _).trans (State.setReg_frame _ x _)
  | rnd x nn => cases h; exact s.consumeDraw_setReg_frame x _
  | ldix nnn => cases h; exact s.setIndex_frame _
  | addix x => cases h; exact s.setIndex_frame _
  | font x => cases h; exact s.setIndex_frame _
  | drw x y n =>
    cases h
    exact State.orRaise_frame _ (fun _ => (s.setDisplay_setReg_frame _ regVF _).mono (by simp [mayChange]))
      (by simp [mayChange])
  | skp x =>
    cases h
    exact State.orRaise_frame _ (fun _ => (s.skipIf_frame _).mono (by simp [mayChange])) (by simp [mayChange])
  | sknp x =>
    cases h
    exact State.orRaise_frame _ (fun _ => (s.skipIf_frame _).mono (by simp [mayChange])) (by simp [mayChange])
  | ldvdt x => cases h; exact s.setReg_frame x _
  | wkey x =>
    cases hkey : s.firstKey with
    | some k =>
      rw [exec_wkey_of_firstKey_some x hkey] at h; cases h
      exact (s.setReg_frame x _).mono (by simp [mayChange])
    | none =>
      rw [exec_wkey_of_firstKey_none x hkey] at h; cases h
      exact (s.setPc_frame _).mono (by simp [mayChange])
  | lddt x => cases h; exact s.setDelay_frame _
  | ldst x => cases h; exact s.setSound_frame _
  | bcd x =>
    cases h
    exact State.orRaise_frame _ (fun m => (s.setMem_frame m).mono (by simp [mayChange])) (by simp [mayChange])
  | dump x =>
    cases h
    exact State.orRaise_frame _ (fun m => (s.setMem_setIndex_frame m _).mono (by simp [mayChange]))
      (by simp [mayChange])
  | load x =>
    cases h
    exact State.orRaise_frame _ (fun _ => (s.setRegs_setIndex_frame _ _).mono (by simp [mayChange]))
      (by simp [mayChange])
  | nop op => cases h; exact UnchangedExcept.refl s _

/-! ### The faults of every handler -/

/-- The causes of 60_exceptions.md R126 as a handler meets them in `s`: which instruction raises which fault, under
which condition, with which recorded value. -/
inductive Raises (s : State) : Instr → Fault → Prop
  | call (nnn : Imm12) (h : s.sp.val = 16) : Raises s (.call nnn) (.stackOverflow s.opcodeAddress)
  | ret (h : s.sp.val = 0) : Raises s .ret (.stackUnderflow s.opcodeAddress)
  | drwRead (x y : Reg) (n : RowCount) (h : ¬ SpriteInMemory s n) :
    Raises s (.drw x y n) (.addressOutOfRange (if 4096 ≤ s.i.toNat then s.i.toNat else 4096))
  | drwCell (x y : Reg) (n : RowCount) (k : Nat) (hmem : SpriteInMemory s n) (hbit : SetBitAt s x y n k)
    (h : 2048 ≤ k) : Raises s (.drw x y n) (.displayOutOfRange k)
  | skp (x : Reg) (h : 15 < (s.reg x).toNat) : Raises s (.skp x) (.keyIndexOutOfRange (s.reg x).toNat)
  | sknp (x : Reg) (h : 15 < (s.reg x).toNat) : Raises s (.sknp x) (.keyIndexOutOfRange (s.reg x).toNat)
  | bcd (x : Reg) (h : 4096 < s.i.toNat + 3) :
    Raises s (.bcd x) (.addressOutOfRange (if 4096 ≤ s.i.toNat then s.i.toNat else 4096))
  | dump (x : Reg) (h : 4096 < s.i.toNat + x.val + 1) :
    Raises s (.dump x) (.addressOutOfRange (if 4096 ≤ s.i.toNat then s.i.toNat else 4096))
  | load (x : Reg) (h : 4096 < s.i.toNat + x.val + 1) :
    Raises s (.load x) (.addressOutOfRange (if 4096 ≤ s.i.toNat then s.i.toNat else 4096))

/-- The faults of a draw under `linear`. -/
theorem raises_of_drawCells_error {s : State} {x y : Reg} {n : RowCount} {f : Fault}
    (h : drawCells .linear (s.reg x) (s.reg y) n s = .error f) : Raises s (.drw x y n) f := by
  by_cases hmem : SpriteInMemory s n
  · rw [drawCells_of_inMemory hmem] at h
    obtain ⟨p, hp, hcell⟩ := exists_cellOf_error h
    rw [cellOf_linear] at hcell
    split at hcell
    · cases hcell
    · next hbeyond =>
      cases hcell
      exact .drwCell x y n _ hmem (mem_bitIndices.1 (List.mem_map_of_mem hp)) (Nat.le_of_not_lt hbeyond)
  · rw [drawCells_of_not_inMemory hmem] at h
    cases h
    exact .drwRead x y n hmem

/-- A handler either leaves the latch or raises one of its faults, and then changes nothing else. -/
theorem exec_cases {i : Instr} {s u : State} (h : exec i s = .next u) :
    u.flt = s.flt ∨ ∃ f, Raises s i f ∧ u = s.raise f := by
  cases i with
  | ret =>
    by_cases hempty : s.sp.val = 0
    · rw [exec_ret_of_empty hempty] at h; cases h
      exact .inr ⟨_, .ret hempty, rfl⟩
    · rw [exec_ret_of_ne hempty] at h; cases h
      exact .inl rfl
  | call nnn =>
    by_cases hfull : s.sp.val = 16
    · rw [exec_call_of_full nnn hfull] at h; cases h
      exact .inr ⟨_, .call nnn hfull, rfl⟩
    · rw [exec_call_of_lt nnn (State.sp_lt_of_ne hfull)] at h; cases h
      exact .inl rfl
  | drw x y n =>
    obtain ⟨cells, -, hu⟩ | ⟨f, hf, hu⟩ := State.orRaise_cases (Host.Outcome.next.inj h)
    · exact .inl (hu ▸ rfl)
    · exact .inr ⟨f, raises_of_drawCells_error hf, hu⟩
  | skp x =>
    obtain ⟨k, -, hu⟩ | ⟨f, hf, hu⟩ := State.orRaise_cases (Host.Outcome.next.inj h)
    · exact .inl (hu ▸ rfl)
    · obtain ⟨hx, rfl⟩ := keyIndex_eq_error.1 hf
      exact .inr ⟨_, .skp x hx, hu⟩
  | sknp x =>
    obtain ⟨k, -, hu⟩ | ⟨f, hf, hu⟩ := State.orRaise_cases (Host.Outcome.next.inj h)
    · exact .inl (hu ▸ rfl)
    · obtain ⟨hx, rfl⟩ := keyIndex_eq_error.1 hf
      exact .inr ⟨_, .sknp x hx, hu⟩
  | bcd x =>
    obtain ⟨m, -, hu⟩ | ⟨f, hf, hu⟩ := State.orRaise_cases (Host.Outcome.next.inj h)
    · exact .inl (hu ▸ rfl)
    · obtain ⟨hrange, rfl⟩ := memWrite_eq_error.1 hf
      exact .inr ⟨_, .bcd x hrange, hu⟩
  | dump x =>
    obtain ⟨m, -, hu⟩ | ⟨f, hf, hu⟩ := State.orRaise_cases (Host.Outcome.next.inj h)
    · exact .inl (hu ▸ rfl)
    · obtain ⟨hrange, rfl⟩ := memWrite_eq_error.1 hf
      rw [State.length_firstRegs] at hrange
      exact .inr ⟨_, .dump x hrange, hu⟩
  | load x =>
    obtain ⟨bs, -, hu⟩ | ⟨f, hf, hu⟩ := State.orRaise_cases (Host.Outcome.next.inj h)
    · exact .inl (hu ▸ rfl)
    · obtain ⟨hrange, rfl⟩ := memRead_eq_error.1 hf
      exact .inr ⟨_, .load x hrange, hu⟩
  | _ => exact .inl (exec_frame h .latch (by simp [mayChange]))

/-! ### PC after a handler that raised nothing -/

theorem State.firstKey_eq_none_iff_key {s : State} : s.firstKey = none ↔ s.key = 0 := by
  rw [State.firstKey_eq_none]
  refine ⟨fun h => BitVec.eq_of_getLsbD_eq fun k hk => ?_, fun h k _ => ?_⟩
  · rw [show s.key.getLsbD k = false from h k hk]
    exact BitVec.getLsbD_zero.symm
  · rw [State.keyPressed, h]
    exact BitVec.getLsbD_zero

/-- The list of 10_state.md R13. -/
theorem exec_pc {i : Instr} {s u : State} {op : Word} (h : exec i (s.enterHandler op) = .next u)
    (hnone : u.flt = none) : u.pc = pcAfter i s := by
  cases i with
  | jp nnn => cases h; rfl
  | jpv0 nnn => cases h; rfl
  | se x nn => cases h; rfl
  | sne x nn => cases h; rfl
  | ser x y => cases h; rfl
  | sner x y => cases h; rfl
  | call nnn =>
    by_cases hfull : (s.enterHandler op).sp.val = 16
    · rw [exec_call_of_full nnn hfull] at h; cases h
      cases hnone
    · rw [exec_call_of_lt nnn (State.sp_lt_of_ne hfull)] at h; cases h
      rfl
  | ret =>
    by_cases hempty : (s.enterHandler op).sp.val = 0
    · rw [exec_ret_of_empty hempty] at h; cases h
      cases hnone
    · rw [exec_ret_of_ne hempty] at h; cases h
      have hlt : s.sp.val - 1 < 16 := by have := s.sp.isLt; omega
      rw [pcAfter, Vector.getElem?_eq_getElem hlt]; rfl
  | skp x =>
    obtain ⟨k, hk, hu⟩ | ⟨f, -, rfl⟩ := State.orRaise_cases (Host.Outcome.next.inj h)
    · obtain ⟨-, rfl⟩ := keyIndex_eq_ok.1 hk
      rw [hu]; rfl
    · cases hnone
  | sknp x =>
    obtain ⟨k, hk, hu⟩ | ⟨f, -, rfl⟩ := State.orRaise_cases (Host.Outcome.next.inj h)
    · obtain ⟨-, rfl⟩ := keyIndex_eq_ok.1 hk
      rw [hu]; rfl
    · cases hnone
  | wkey x =>
    cases hkey : (s.enterHandler op).firstKey with
    | some k =>
      have hpressed : s.keyInput ≠ 0 := fun h0 => by
        rw [State.firstKey_enterHandler_eq_none h0] at hkey; cases hkey
      rw [exec_wkey_of_firstKey_some x hkey] at h; cases h
      rw [pcAfter, if_neg hpressed]; rfl
    | none =>
      rw [exec_wkey_of_firstKey_none x hkey] at h; cases h
      have hreleased : s.keyInput = 0 := State.firstKey_eq_none_iff_key.1 hkey
      rw [pcAfter, if_pos hreleased, State.setPc_pc, State.enterHandler_pc,
        BitVec.add_sub_cancel]
  | _ => exact exec_frame h .pc (by simp [mayChange])

end Sys2Proof.Machine
end

section
/-! PROOFS. The whole Step (40_step_cycle.md R60 to R68, 60_exceptions.md R127 to R132): how it ends, its frame, PC and
the timers after it, and what makes it fault. -/

namespace Sys2Proof.Machine

/-! ### How a Step ends -/

theorem stepFaults_cases {s t : State} {f : Fault} (h : StepFaults s t f) :
    Admitted s ∧ t = s.raise f ∧ (fetchOpcode s = .error f ∨
      ∃ op, fetchOpcode s = .ok op ∧ Raises (s.enterHandler op) (decodeOpcode op) f) := by
  obtain ⟨hstep, hf⟩ := h
  obtain ⟨hflt, hloaded, ⟨f', hfetch, rfl⟩ | ⟨op, u, hfetch, hu, ⟨hnone, rfl⟩ | ⟨f', hf', rfl⟩⟩⟩ := step_cases hstep
  · cases hf
    exact ⟨⟨hflt, hloaded⟩, rfl, .inl hfetch⟩
  · rw [State.tickTimers_flt, hnone] at hf; cases hf
  · cases hf
    obtain hkeep | ⟨f', hraises, rfl⟩ := exec_cases hu
    · rw [hf', State.enterHandler_flt, hflt] at hkeep; cases hkeep
    · cases hf'
      exact ⟨⟨hflt, hloaded⟩, rfl, .inr ⟨op, hfetch, hraises⟩⟩

/-- A Step that completes runs the handler of `nextInstr`. -/
theorem stepCompletes_nextInstr {s t : State} {i : Instr} (h : StepCompletes s t) (hi : nextInstr s = some i) :
    ∃ op u, exec i (s.enterHandler op) = .next u ∧ u.flt = none ∧ t = u.tickTimers := by
  obtain ⟨-, -, op, u, hfetch, hu, hnone, rfl⟩ := stepCompletes_cases h
  obtain ⟨op', hfetch', rfl⟩ := nextInstr_eq_some.1 hi
  cases hfetch.symm.trans hfetch'
  exact ⟨op, u, hu, hnone, rfl⟩

/-- An admitted Step answers a next state. -/
theorem step_of_admitted {s : State} (h : Admitted s) : ∃ t, step s = .next t := by
  obtain ⟨hflt, hloaded⟩ := h
  cases hfetch : fetchOpcode s with
  | error f => exact ⟨_, step_of_fetchFault hflt hloaded hfetch⟩
  | ok op =>
    obtain ⟨u, hu⟩ := exec_answers_next (decodeOpcode op) (s.enterHandler op)
    exact ⟨_, step_of_exec hflt hloaded hfetch hu⟩

theorem hostStep_of_completes {s t : State} (h : StepCompletes s t) : hostStep s = (t, .ok) := by
  rw [hostStep, h.1, stateAfter, resultOf, h.2]

theorem hostStep_of_faults {s t : State} {f : Fault} (h : StepFaults s t f) : hostStep s = (t, .fault f) := by
  rw [hostStep, h.1, stateAfter, resultOf, h.2]

theorem hostStep_of_latched {s : State} {f : Fault} (h : s.flt = some f) : hostStep s = (s, .fault f) := by
  rw [hostStep, step_of_fault h]; rfl

/-! ### Frames around the handler -/

theorem State.enterHandler_frame (s : State) (op : Word) :
    UnchangedExcept [.pc, .opcode, .keypad] s (s.enterHandler op) := by
  apply UnchangedExcept.of_fields <;> simp

theorem State.tickTimers_frame (s : State) : UnchangedExcept [.delay, .sound] s s.tickTimers := by
  apply UnchangedExcept.of_fields <;> simp

/-- The frame of a Step around a handler with the frame `parts`. -/
theorem step_frame {parts : List Part} {s u : State} {op : Word} (h : UnchangedExcept parts (s.enterHandler op) u) :
    UnchangedExcept (.pc :: .opcode :: .delay :: .sound :: .keypad :: parts) s u.tickTimers :=
  ((s.enterHandler_frame op).mono (by simp)).trans
    ((h.mono (by intro p hp; simp [hp])).trans (u.tickTimers_frame.mono (by simp)))

/-- No handler changes OPCODE or the keypad sample. -/
theorem opcode_notMem_mayChange (i : Instr) : .opcode ∉ mayChange i := by
  cases i <;> simp [mayChange]

theorem keypad_notMem_mayChange (i : Instr) : .keypad ∉ mayChange i := by
  cases i <;> simp [mayChange]

theorem memory_mem_mayChange {i : Instr} (h : .memory ∈ mayChange i) : ∃ x, i = .bcd x ∨ i = .dump x := by
  cases i with
  | bcd x => exact ⟨x, .inl rfl⟩
  | dump x => exact ⟨x, .inr rfl⟩
  | _ => simp [mayChange] at h

theorem display_mem_mayChange {i : Instr} (h : .display ∈ mayChange i) : i = .cls ∨ ∃ x y n, i = .drw x y n := by
  cases i with
  | cls => exact .inl rfl
  | drw x y n => exact .inr ⟨x, y, n, rfl⟩
  | _ => simp [mayChange] at h

theorem stack_mem_mayChange {i : Instr} (h : .stack ∈ mayChange i) : ∃ nnn, i = .call nnn := by
  cases i with
  | call nnn => exact ⟨nnn, rfl⟩
  | _ => simp [mayChange] at h

/-! ### The obligations -/

/-- Settles O6: the four ways a Step goes, in the order of its admission, fetch and handler. -/
theorem stepRunsTheDecodedInstruction : Obligations.StepRunsTheDecodedInstruction := by
  refine fun s => ⟨fun f => step_of_fault, step_of_notLoaded, fun ⟨hflt, hloaded⟩ hpc => ?_,
    fun i ⟨hflt, hloaded⟩ hpc hdecode => ?_⟩
  · exact step_of_fetchFault hflt hloaded (fetchOpcode_eq_error.2 ⟨by omega, rfl⟩)
  · have hfetch := fetchOpcode_eq_ok.2 ⟨show s.pc.toNat + 2 ≤ 4096 by omega, rfl⟩
    obtain rfl : decodeOpcode _ = i := congrArg Prod.fst (Except.ok.inj hdecode)
    obtain ⟨u, hu⟩ := exec_answers_next (decodeOpcode _) (s.enterHandler _)
    have hstep := step_of_exec hflt hloaded hfetch hu
    refine ⟨u, hu, fun hnone => ?_, fun f hf => ?_⟩
    · rw [State.endStep_of_none hnone] at hstep
      exact ⟨congrArg Prod.snd (hostStep_of_completes ⟨hstep, hnone⟩), hstep⟩
    · rw [State.endStep_of_some hf] at hstep
      exact ⟨congrArg Prod.snd (hostStep_of_faults ⟨hstep, rfl⟩), hstep⟩

/-- Settles O7: a faulting Step answers the state before it with the fault latched, and a latched fault is answered
again. -/
theorem faultingStepChangesOnlyTheLatch : Obligations.FaultingStepChangesOnlyTheLatch := by
  intro s t f h
  obtain ⟨hadmitted, rfl, -⟩ := stepFaults_cases h
  exact ⟨hadmitted, rfl, hostStep_of_faults h, step_of_fault rfl, hostStep_of_latched rfl⟩

/-- Settles O8: the fetch raises only the address fault, and `Raises` lists what the handlers raise; a handler sees the
registers, I, SP and memory from before the Step, and PC advanced by 2. -/
theorem faultsHaveTheirCauses : Obligations.FaultsHaveTheirCauses := by
  intro s t f h
  obtain ⟨-, -, hfetch | ⟨op, hfetch, hraises⟩⟩ := stepFaults_cases h
  · obtain ⟨hpc, rfl⟩ := fetchOpcode_eq_error.1 hfetch
    exact .inl ⟨by omega, rfl⟩
  · have hpc : s.pc.toNat ≤ 4094 := by have := (fetchOpcode_eq_ok.1 hfetch).1; omega
    have hself : (s.enterHandler op).opcodeAddress = s.pc.toNat := by
      rw [State.opcodeAddress, State.enterHandler_pc, BitVec.add_sub_cancel]
    have hnext {i : Instr} (hi : decodeOpcode op = i) : nextInstr s = some i := nextInstr_eq_some.2 ⟨op, hfetch, hi⟩
    generalize decodeOpcode op = i at hraises hnext
    cases hraises with
    | call nnn hfull => exact ⟨⟨nnn, hnext rfl⟩, hfull, hself⟩
    | ret hempty => exact ⟨hnext rfl, hempty, hself⟩
    | drwRead x y n hmem =>
      obtain ⟨hn, hrange⟩ := not_or.1 hmem
      exact .inr ⟨hpc, rfl, .inl ⟨x, y, n, hnext rfl, hn, Nat.lt_of_not_le hrange⟩⟩
    | drwCell x y n k hmem hbit hk => exact ⟨x, y, n, hnext rfl, hmem, hbit, hk⟩
    | skp x hx => exact ⟨x, .inl (hnext rfl), rfl, hx⟩
    | sknp x hx => exact ⟨x, .inr (hnext rfl), rfl, hx⟩
    | bcd x hrange => exact .inr ⟨hpc, rfl, .inr (.inl ⟨x, hnext rfl, hrange⟩)⟩
    | dump x hrange => exact .inr ⟨hpc, rfl, .inr (.inr (.inl ⟨x, hnext rfl, hrange⟩))⟩
    | load x hrange => exact .inr ⟨hpc, rfl, .inr (.inr (.inr ⟨x, hnext rfl, hrange⟩))⟩

/-- Settles O9: the tick comes after the handler, and only LDDT and LDST write a timer. -/
theorem timersCountDownAfterTheHandler : Obligations.TimersCountDownAfterTheHandler := by
  refine fun s t => ⟨fun i h hi => ?_, fun f h => ?_⟩
  · obtain ⟨op, u, hu, -, rfl⟩ := stepCompletes_nextInstr h hi
    rw [State.tickTimers_dt, State.tickTimers_st, tick_toNat, tick_toNat]
    refine ⟨congrArg (· - 1) ?_, congrArg (· - 1) ?_, ?_⟩
    · cases i with
      | lddt x => cases hu; rfl
      | _ => exact congrArg _ (exec_frame hu .delay (by simp [mayChange]))
    · cases i with
      | ldst x => cases hu; rfl
      | _ => exact congrArg _ (exec_frame hu .sound (by simp [mayChange]))
    · rintro x rfl
      cases hu
      exact State.reg_setReg_self (s.enterHandler op) x s.dt
  · obtain ⟨-, rfl, -⟩ := stepFaults_cases h
    exact ⟨rfl, rfl⟩

/-- Settles O10: the tick leaves PC where the handler put it. -/
theorem programCounterAfterEveryStep : Obligations.ProgramCounterAfterEveryStep := by
  intro s t i h hi
  obtain ⟨op, u, hu, hnone, rfl⟩ := stepCompletes_nextInstr h hi
  rw [State.tickTimers_pc, exec_pc hu hnone]

/-- Settles O11: `exec_frame`, handler by handler. -/
theorem footprintOfEveryHandler : Obligations.FootprintOfEveryHandler := fun _ _ _ => exec_frame

/-- Settles O12: the frames of the entry, the handler and the tick in sequence; each of the last three clauses says
which handlers' frames have the part. -/
theorem footprintOfEveryStep : Obligations.FootprintOfEveryStep := by
  intro s t i h hi
  obtain ⟨op, u, hu, -, rfl⟩ := stepCompletes_nextInstr h hi
  have hframe := step_frame (exec_frame hu)
  have hlisted {p : Part} (hne : p ∉ [.pc, .opcode, .delay, .sound, .keypad]) (hp : ¬ p.same s u.tickTimers) :
      p ∈ mayChange i := by
    by_contra hnot
    exact hp (hframe p (by simpa [hnot] using hne))
  refine ⟨hframe, fun ⟨a, ha⟩ => memory_mem_mayChange (hlisted (by simp) fun hsame => ha (hsame a)),
    fun ⟨k, hk⟩ => display_mem_mayChange (hlisted (by simp) fun hsame => hk (hsame k)),
    fun hstack => stack_mem_mayChange (hlisted (by simp) hstack)⟩

/-- Settles O13: an admitted Step answers a next state, whose latch says how it ended. -/
theorem everyAdmittedStepEnds : Obligations.EveryAdmittedStepEnds := by
  intro s h
  obtain ⟨t, ht⟩ := step_of_admitted h
  refine ⟨t, ?_⟩
  cases hflt : t.flt with
  | none => exact .inl ⟨⟨ht, hflt⟩, hostStep_of_completes ⟨ht, hflt⟩⟩
  | some f => exact .inr ⟨f, ⟨ht, hflt⟩, hostStep_of_faults ⟨ht, hflt⟩⟩

/-- Settles O20: the entry to the handler overwrites OPCODE, no handler writes it, and the fetch does not read it. -/
theorem opcodeIsNeverReadBetweenSteps : Obligations.OpcodeIsNeverReadBetweenSteps := by
  intro s t w h
  obtain ⟨hflt, hloaded, op, u, hfetch, hu, hnone, rfl⟩ := stepCompletes_cases h
  have hopcode : u.opcode = op := exec_frame hu .opcode (opcode_notMem_mayChange _)
  refine ⟨by rwa [State.tickTimers_opcode, hopcode], ?_⟩
  exact (step_of_exec (s := { s with opcode := w }) hflt hloaded hfetch hu).trans
    (congrArg _ (State.endStep_of_none hnone))

/-- Settles O26: an unmapped opcode is a NOP, and the frame of its Step is that of the entry and the tick. -/
theorem unmappedOpcodesDoNothing : Obligations.UnmappedOpcodesDoNothing := by
  refine ⟨exec_nop, fun s op ha hfetch hunmapped => ?_⟩
  have hi : nextInstr s = some (.nop op) := nextInstr_eq_some.2 ⟨op, hfetch, decodeOpcode_of_unmapped hunmapped⟩
  obtain ⟨op', hstep⟩ := stepCompletes_of_handler ha hi
  have hnop := exec_nop op (s.enterHandler op')
  exact ⟨_, hstep _ hnop ha.1, rfl, tick_toNat _, tick_toNat _, step_frame (exec_frame hnop)⟩

/-- Settles O44: two zero bytes are the opcode 0x0000, which is CLS. -/
theorem zeroMemoryExecutesAsClear : Obligations.ZeroMemoryExecutesAsClear := by
  intro s ha hpc hhigh hlow
  have hi : nextInstr s = some .cls := by
    refine nextInstr_eq_some.2 ⟨_, fetchOpcode_eq_ok.2 ⟨by omega, rfl⟩, ?_⟩
    rw [hhigh, hlow]; rfl
  obtain ⟨op, hstep⟩ := stepCompletes_of_handler ha hi
  have hcls := exec_cls (s.enterHandler op)
  exact ⟨hi, _, hstep _ hcls ha.1, Framebuffer.cell_blank, rfl,
    (step_frame (exec_frame hcls)).mono (by simp [mayChange])⟩

/-- Settles O56: the entry to the handler samples the written pattern and uses it up, and no handler writes KEY. -/
theorem nextStepSeesTheWrittenKeypad : Obligations.NextStepSeesTheWrittenKeypad := by
  intro s t k h
  obtain ⟨-, -, op, u, -, hu, -, rfl⟩ := stepCompletes_cases h
  obtain ⟨hkey, hinputs, -⟩ := exec_frame hu .keypad (keypad_notMem_mayChange _)
  exact ⟨hkey, hinputs⟩

end Sys2Proof.Machine
end

section
/-! PROOFS. What no handler reads (10_state.md R14, R15, R21): ST, but for the keypad instructions KEY, and the stack
entries at index SP and above. -/

namespace Sys2Proof.Machine

/-! ### Handlers and a change of ST, KEY or the stack entries -/

/-- `s` with ST, KEY and the stack entries changed; `id` leaves a field. -/
def State.mapUnread (s : State) (st : Byte → Byte) (key : BitVec 16 → BitVec 16)
    (stack : Vector Word 16 → Vector Word 16) : State :=
  { s with st := st s.st, key := key s.key, stack := stack s.stack }

/-- A change of the state goes through a fault-or-result when it goes through the raise and the continuation. -/
theorem State.orRaise_comm {α : Type} {g : State → State} {s : State} {k k' : α → State} (r : Except Fault α)
    (hraise : ∀ f, (g s).raise f = g (s.raise f)) (hk : ∀ a, k' a = g (k a)) :
    (g s).orRaise r k' = g (s.orRaise r k) := by
  cases r with
  | ok a => exact hk a
  | error f => exact hraise f

/-- A handler that writes none of ST, KEY and the stack, and reads none of those that are changed, answers the same
state with the same change. -/
theorem exec_mapUnread {i : Instr} {s u : State} {st : Byte → Byte} {key : BitVec 16 → BitVec 16}
    {stack : Vector Word 16 → Vector Word 16} (h : exec i s = .next u)
    (hst : ∀ x, i = .ldst x → st = id)
    (hkey : ∀ x, i = .skp x ∨ i = .sknp x ∨ i = .wkey x → key = id)
    (hstack : ∀ nnn, i = .call nnn ∨ i = .ret → stack = id) :
    exec i (s.mapUnread st key stack) = .next (u.mapUnread st key stack) := by
  have through {α : Type} {r : Except Fault α} {k k' : α → State}
      (hk : ∀ a, k' a = (k a).mapUnread st key stack) :
      Host.Outcome.next (φ := Fault) (ρ := Refusal) ((s.mapUnread st key stack).orRaise r k') =
        .next ((s.orRaise r k).mapUnread st key stack) :=
    congrArg _ (State.orRaise_comm (g := fun s => s.mapUnread st key stack) r (fun _ => rfl) hk)
  cases i with
  | ldst x =>
    obtain rfl := hst x rfl
    cases h; rfl
  | skp x =>
    obtain rfl := hkey x (.inl rfl)
    cases h; exact through fun _ => rfl
  | sknp x =>
    obtain rfl := hkey x (.inr (.inl rfl))
    cases h; exact through fun _ => rfl
  | wkey x =>
    obtain rfl := hkey x (.inr (.inr rfl))
    cases hscan : s.firstKey with
    | some k =>
      rw [exec_wkey_of_firstKey_some x hscan] at h; cases h
      exact exec_wkey_of_firstKey_some (s := s.mapUnread st id stack) x hscan
    | none =>
      rw [exec_wkey_of_firstKey_none x hscan] at h; cases h
      exact exec_wkey_of_firstKey_none (s := s.mapUnread st id stack) x hscan
  | call nnn =>
    obtain rfl := hstack nnn (.inl rfl)
    by_cases hfull : s.sp.val = 16
    · rw [exec_call_of_full nnn hfull] at h; cases h
      exact exec_call_of_full (s := s.mapUnread st key id) nnn hfull
    · rw [exec_call_of_lt nnn (State.sp_lt_of_ne hfull)] at h; cases h
      exact exec_call_of_lt (s := s.mapUnread st key id) nnn (State.sp_lt_of_ne hfull)
  | ret =>
    obtain rfl := hstack 0 (.inr rfl)
    by_cases hempty : s.sp.val = 0
    · rw [exec_ret_of_empty hempty] at h; cases h
      exact exec_ret_of_empty (s := s.mapUnread st key id) hempty
    · rw [exec_ret_of_ne hempty] at h; cases h
      exact exec_ret_of_ne (s := s.mapUnread st key id) hempty
  | drw x y n => cases h; exact through fun _ => rfl
  | bcd x => cases h; exact through fun _ => rfl
  | dump x => cases h; exact through fun _ => rfl
  | load x => cases h; exact through fun _ => rfl
  | _ => cases h; rfl

/-- ST: LDST overwrites it, and no other handler looks at it. -/
theorem exec_withSound {i : Instr} {s u : State} (b : Byte) (h : exec i s = .next u) :
    ∃ c, exec i { s with st := b } = .next { u with st := c } := by
  by_cases hldst : ∃ x, i = .ldst x
  · obtain ⟨x, rfl⟩ := hldst
    cases h
    exact ⟨s.reg x, rfl⟩
  · exact ⟨b, exec_mapUnread (st := fun _ => b) (key := id) (stack := id) h (fun x hi => absurd ⟨x, hi⟩ hldst)
      (fun _ _ => rfl) (fun _ _ => rfl)⟩

/-- The stack: CALL writes the entry at SP, which becomes valid, and RET reads the last valid entry. -/
theorem exec_withStack {i : Instr} {s u : State} {w : Vector Word 16}
    (hvalid : ∀ j : Fin 16, j.val < s.sp.val → w[j.val] = s.stack[j.val]) (h : exec i s = .next u) :
    ∃ w', exec i { s with stack := w } = .next { u with stack := w' } ∧
      ∀ j : Fin 16, j.val < u.sp.val → w'[j.val] = u.stack[j.val] := by
  by_cases hcall : ∃ nnn, i = .call nnn
  · obtain ⟨nnn, rfl⟩ := hcall
    by_cases hfull : s.sp.val = 16
    · rw [exec_call_of_full nnn hfull] at h; cases h
      exact ⟨w, exec_call_of_full (s := { s with stack := w }) nnn hfull, hvalid⟩
    · have hlt := State.sp_lt_of_ne hfull
      rw [exec_call_of_lt nnn hlt] at h; cases h
      refine ⟨_, exec_call_of_lt (s := { s with stack := w }) nnn hlt, fun j hj => ?_⟩
      show (w.set s.sp.val s.pc hlt)[j.val] = (s.stack.set s.sp.val s.pc hlt)[j.val]
      rw [Vector.getElem_set, Vector.getElem_set]
      split
      · rfl
      · exact hvalid j (Nat.lt_of_le_of_ne (Nat.le_of_lt_succ hj) (Ne.symm ‹_›))
  by_cases hret : i = .ret
  · subst hret
    by_cases hempty : s.sp.val = 0
    · rw [exec_ret_of_empty hempty] at h; cases h
      exact ⟨w, exec_ret_of_empty (s := { s with stack := w }) hempty, hvalid⟩
    · have hlast : s.sp.val - 1 < s.sp.val := Nat.sub_one_lt hempty
      have hentry : w[s.sp.val - 1] = s.stack[s.sp.val - 1] := hvalid ⟨s.sp.val - 1, by omega⟩ hlast
      rw [exec_ret_of_ne hempty, ← hentry] at h; cases h
      exact ⟨w, exec_ret_of_ne (s := { s with stack := w }) hempty, fun j hj => hvalid j (Nat.lt_trans hj hlast)⟩
  · have hsp : u.sp = s.sp := exec_frame h .sp fun hmem => by
      cases i with
      | call nnn => exact hcall ⟨nnn, rfl⟩
      | ret => exact hret rfl
      | _ => simp [mayChange] at hmem
    have hsame : u.stack = s.stack := exec_frame h .stack fun hmem => hcall (stack_mem_mayChange hmem)
    refine ⟨w, exec_mapUnread (st := id) (key := id) (stack := fun _ => w) h (fun _ _ => rfl) (fun _ _ => rfl)
      (fun nnn hi => absurd hi (not_or.2 ⟨fun hc => hcall ⟨nnn, hc⟩, hret⟩)), fun j hj => ?_⟩
    rw [hsp] at hj
    rw [hvalid j hj, hsame]

/-! ### The obligations -/

/-- Settles O17: neither the fetch nor a handler reads ST; the tick of ST goes to ST. -/
theorem soundTimerIsNeverRead : Obligations.SoundTimerIsNeverRead := by
  intro s t b h
  obtain ⟨hflt, hloaded, ⟨f, hfetch, rfl⟩ | ⟨op, u, hfetch, hu, hend⟩⟩ := step_cases h
  · exact ⟨_, step_of_fetchFault (s := { s with st := b }) hflt hloaded hfetch, rfl⟩
  · obtain ⟨c, hu'⟩ := exec_withSound b hu
    have hstep := step_of_exec (s := { s with st := b }) hflt hloaded hfetch hu'
    obtain ⟨hnone, rfl⟩ | ⟨f, hf, rfl⟩ := hend
    · exact ⟨_, hstep.trans (congrArg _ (State.endStep_of_none hnone)), rfl⟩
    · exact ⟨_, hstep.trans (congrArg _ (State.endStep_of_some hf)), rfl⟩

/-- Settles O18: the three instructions apart, no handler looks at KEY. -/
theorem keypadIsReadByThreeInstructions : Obligations.KeypadIsReadByThreeInstructions := by
  intro i s t k hi h
  refine exec_mapUnread (st := id) (key := fun _ => k) (stack := id) h (fun _ _ => rfl) (fun x hx => ?_)
    (fun _ _ => rfl)
  obtain ⟨hskp, hsknp, hwkey⟩ := hi x
  exact absurd hx (not_or.2 ⟨hskp, not_or.2 ⟨hsknp, hwkey⟩⟩)

/-- Settles O19: the fetch does not read the stack, and the handlers keep the agreement of the valid entries. -/
theorem staleStackEntriesAreNeverRead : Obligations.StaleStackEntriesAreNeverRead := by
  intro s t w hvalid h
  obtain ⟨hflt, hloaded, ⟨f, hfetch, rfl⟩ | ⟨op, u, hfetch, hu, hend⟩⟩ := step_cases h
  · exact ⟨_, step_of_fetchFault (s := { s with stack := w }) hflt hloaded hfetch, rfl, hvalid⟩
  · obtain ⟨w', hu', hvalid'⟩ := exec_withStack (s := s.enterHandler op) hvalid hu
    have hstep := step_of_exec (s := { s with stack := w }) hflt hloaded hfetch hu'
    obtain ⟨hnone, rfl⟩ | ⟨f, hf, rfl⟩ := hend
    · exact ⟨_, hstep.trans (congrArg _ (State.endStep_of_none hnone)), rfl, hvalid'⟩
    · exact ⟨_, hstep.trans (congrArg _ (State.endStep_of_some hf)), rfl, hvalid⟩

end Sys2Proof.Machine
end

section
/-! PROOFS. Reset and LoadProgram (70_reset_and_hazards.md R150 to R158). -/

namespace Sys2Proof.Machine

/-! ### What LoadProgram answers -/

theorem loadProgram_of_latched {bytes : List Byte} {s : State} {f : Fault} (h : s.flt = some f) :
    loadProgram bytes s = .fault f := by
  rw [loadProgram, h]

theorem loadProgram_of_loaded {bytes : List Byte} {s : State} (h : s.flt = none) (hl : s.loaded = true) :
    loadProgram bytes s = .refused .secondLoad := by
  simp only [loadProgram, h, hl, if_true]

theorem loadProgram_of_long {bytes : List Byte} {s : State} (h : s.flt = none) (hl : s.loaded = false)
    (hlong : programCapacity < bytes.length) :
    loadProgram bytes s = .next (s.raise (.romLoadError bytes.length)) := by
  simp only [loadProgram, h, hl, hlong, if_true, if_false, Bool.false_eq_true]

theorem loadProgram_of_fits {bytes : List Byte} {s : State} (h : s.flt = none) (hl : s.loaded = false)
    (hfits : bytes.length ≤ programCapacity) :
    loadProgram bytes s = .next { s with mem := s.mem.writeMany 512 bytes, loaded := true } := by
  simp only [loadProgram, h, hl, Nat.not_lt.2 hfits, if_false, Bool.false_eq_true, Config.loadOrigin_eq]

theorem programCapacity_eq : programCapacity = 3584 := rfl

/-! ### The reset contents of memory -/

/-- Beyond the 80 bytes of the font table nothing is listed. -/
theorem resetByte_font (a : Nat) :
    resetByte a = if 0x050 ≤ a ∧ a < 0x050 + 80 then Config.fontData.getD (a - 0x050) 0 else 0 := by
  rw [Memory.resetByte_eq]
  by_cases hlow : 80 ≤ a
  · by_cases hhigh : a < 80 + 80
    · rw [if_pos hlow, if_pos ⟨hlow, hhigh⟩]
    · rw [if_pos hlow, if_neg fun h => hhigh h.2,
        List.getD_eq_default _ _ (by rw [Config.fontData_length]; omega)]
  · rw [if_neg hlow, if_neg fun h => hlow h.1]

/-! ### The obligations -/

/-- Settles O53: every field the core owns is that of `State.reset`, and the inputs are those of the state before. -/
theorem resetLeavesTheStatedValues : Obligations.ResetLeavesTheStatedValues := by
  intro s
  refine ⟨fun r => Vector.getElem_replicate r.isLt, rfl, rfl, rfl, fun j => Vector.getElem_replicate j.isLt, rfl, rfl,
    resetByte_font, Framebuffer.cell_blank, rfl, rfl, ⟨rfl, rfl, rfl⟩, rfl, rfl⟩

/-- Settles O54: the four cases of LoadProgram's admission and length test. -/
theorem loadProgramStoresTheBytes : Obligations.LoadProgramStoresTheBytes := by
  refine ⟨fun bytes s h hl hm hfits => ?_, fun bytes s h hl hlong => loadProgram_of_long h hl hlong,
    fun bytes s f h => loadProgram_of_latched h, fun bytes s h hl => loadProgram_of_loaded h hl⟩
  have hfits' : bytes.length ≤ programCapacity := hfits
  rw [programCapacity_eq] at hfits'
  obtain ⟨hstored, hother⟩ := Memory.read_store (i := 512) (bs := bytes) hm (by omega)
  refine ⟨_, loadProgram_of_fits h hl hfits, rfl, hstored, hother, ?_⟩
  apply UnchangedExcept.of_fields <;> simp

/-- Settles O55: Reset leaves memory canonical and nothing loaded, so the load is admitted, and the fetch reads the
first two bytes stored at LOAD_ORIGIN. -/
theorem firstStepRunsTheProgramsFirstWord : Obligations.FirstStepRunsTheProgramsFirstWord := by
  intro s hi lo rest hfits
  obtain ⟨t, ht, hloaded, hstored, -, hframe⟩ :=
    loadProgramStoresTheBytes.1 (hi :: lo :: rest) (hostReset s) rfl rfl Memory.wf_nil hfits
  have hpc : t.pc = 0x200 := hframe .pc (by simp)
  have hflt : t.flt = none := hframe .latch (by simp)
  refine ⟨t, ht, ⟨hflt, hloaded⟩, hpc, fetchOpcode_eq_ok.2 ⟨by rw [hpc]; decide, ?_⟩⟩
  have hfirst : t.readByte 512 = hi := hstored 0 (by simp)
  have hsecond : t.readByte 513 = lo := hstored 1 (by simp)
  rw [hpc, ← hfirst, ← hsecond]; rfl

end Sys2Proof.Machine
end

section
/-! PROOFS. The invariant of the machine (10_state.md R13, R14, 41_flow.md R70, R72, 70_reset_and_hazards.md R157): it
holds after Reset, and every Step and every operation of the host keeps it. -/

namespace Sys2Proof.Machine

/-! ### Memory stays canonical -/

theorem State.orRaise_mem_wf {α : Type} {s : State} {k : α → State} (r : Except Fault α) (hm : s.mem.wf)
    (hk : ∀ a, (k a).mem = s.mem) : (s.orRaise r k).mem.wf := by
  cases r with
  | ok a => exact (hk a).symm ▸ hm
  | error f => exact hm

/-- BCD and DUMP store at existing addresses; no other handler writes memory. -/
theorem exec_mem_wf {i : Instr} {s u : State} (h : exec i s = .next u) (hm : s.mem.wf) : u.mem.wf := by
  cases i with
  | bcd x =>
    obtain ⟨m, hw, rfl⟩ | ⟨f, -, rfl⟩ := State.orRaise_cases (Host.Outcome.next.inj h)
    · exact wf_memWrite hm hw
    · exact hm
  | dump x =>
    obtain ⟨m, hw, rfl⟩ | ⟨f, -, rfl⟩ := State.orRaise_cases (Host.Outcome.next.inj h)
    · exact wf_memWrite hm hw
    · exact hm
  | ret =>
    by_cases hempty : s.sp.val = 0
    · rw [exec_ret_of_empty hempty] at h; cases h; exact hm
    · rw [exec_ret_of_ne hempty] at h; cases h; exact hm
  | call nnn =>
    by_cases hfull : s.sp.val = 16
    · rw [exec_call_of_full nnn hfull] at h; cases h; exact hm
    · rw [exec_call_of_lt nnn (State.sp_lt_of_ne hfull)] at h; cases h; exact hm
  | wkey x =>
    cases hscan : s.firstKey with
    | some k => rw [exec_wkey_of_firstKey_some x hscan] at h; cases h; exact hm
    | none => rw [exec_wkey_of_firstKey_none x hscan] at h; cases h; exact hm
  | drw x y n => cases h; exact State.orRaise_mem_wf _ hm fun _ => rfl
  | skp x => cases h; exact State.orRaise_mem_wf _ hm fun _ => rfl
  | sknp x => cases h; exact State.orRaise_mem_wf _ hm fun _ => rfl
  | load x => cases h; exact State.orRaise_mem_wf _ hm fun _ => rfl
  | _ => cases h; exact hm

/-! ### The stack holds return addresses -/

/-- Every valid entry is a return address: the PC advanced past an opcode in memory. -/
def State.StackValid (s : State) : Prop := ∀ j : Fin 16, j.val < s.sp.val → s.stack[j.val].toNat ≤ 4096

theorem exec_stackValid {i : Instr} {s u : State} (h : exec i s = .next u) (hpc : s.pc.toNat ≤ 4096)
    (hs : s.StackValid) : u.StackValid := by
  cases i with
  | call nnn =>
    by_cases hfull : s.sp.val = 16
    · rw [exec_call_of_full nnn hfull] at h; cases h; exact hs
    · have hlt := State.sp_lt_of_ne hfull
      rw [exec_call_of_lt nnn hlt] at h; cases h
      intro j hj
      show (s.stack.set s.sp.val s.pc hlt)[j.val].toNat ≤ 4096
      rw [Vector.getElem_set]
      split
      · exact hpc
      · exact hs j (Nat.lt_of_le_of_ne (Nat.le_of_lt_succ hj) (Ne.symm ‹_›))
  | ret =>
    by_cases hempty : s.sp.val = 0
    · rw [exec_ret_of_empty hempty] at h; cases h; exact hs
    · rw [exec_ret_of_ne hempty] at h; cases h
      exact fun j hj => hs j (Nat.lt_of_lt_of_le hj (Nat.sub_le _ _))
  | _ =>
    have hsp : u.sp = s.sp := exec_frame h .sp (by simp [mayChange])
    have hstack : u.stack = s.stack := exec_frame h .stack (by simp [mayChange])
    rw [State.StackValid, hsp, hstack]
    exact hs

/-! ### PC never exceeds 0x10FE -/

/-- The largest target is that of JPV0, 4095 + 255; the advanced PC and a skip stay below it. -/
theorem pcAfter_le {i : Instr} {s : State} (hpc : s.pc.toNat ≤ 4094)
    (hret : i = .ret → (pcAfter .ret s).toNat ≤ 4096) : (pcAfter i s).toNat ≤ 0x10FE := by
  have hadd (w : Word) (hw : w.toNat ≤ 4096) : (w + 2).toNat = w.toNat + 2 :=
    BitVec.toNat_add_of_lt (show w.toNat + 2 < 2 ^ 16 by omega)
  have hnext : (s.pc + 2).toNat ≤ 4096 := by rw [hadd _ (by omega)]; omega
  have hskip (c : Bool) : (if c then s.pc + 2 + 2 else s.pc + 2).toNat ≤ 0x10FE := by
    split
    · rw [hadd _ hnext]; omega
    · omega
  have htarget (nnn : Imm12) : (immAddress nnn).toNat ≤ 4095 := by
    have := nnn.isLt
    rw [immAddress_toNat]; omega
  cases i with
  | jp nnn => exact (htarget nnn).trans (by decide)
  | call nnn => exact (htarget nnn).trans (by decide)
  | jpv0 nnn =>
    have hsum : (pcAfter (.jpv0 nnn) s).toNat = nnn.toNat + (s.reg 0).toNat :=
      immAddress_add_extendByte_toNat nnn (s.reg 0)
    have := nnn.isLt
    have := (s.reg 0).isLt
    omega
  | ret => exact (hret rfl).trans (by decide)
  | se x nn => exact hskip _
  | sne x nn => exact hskip _
  | ser x y => exact hskip _
  | sner x y => exact hskip _
  | skp x => exact hskip _
  | sknp x => exact hskip _
  | wkey x =>
    rw [pcAfter]
    split <;> omega
  | _ => exact hnext.trans (by decide)

theorem exec_pc_le {i : Instr} {s u : State} {op : Word} (h : exec i (s.enterHandler op) = .next u)
    (hnone : u.flt = none) (hpc : s.pc.toNat ≤ 4094) (hs : s.StackValid) : u.pc.toNat ≤ 0x10FE := by
  rw [exec_pc h hnone]
  refine pcAfter_le hpc ?_
  rintro rfl
  by_cases hempty : (s.enterHandler op).sp.val = 0
  · rw [exec_ret_of_empty hempty] at h; cases h; cases hnone
  · have hne : s.sp.val ≠ 0 := hempty
    have hlast : s.sp.val - 1 < 16 := by have := s.sp.isLt; omega
    rw [pcAfter, Vector.getElem?_eq_getElem hlast]
    exact hs ⟨s.sp.val - 1, hlast⟩ (Nat.sub_one_lt hne)

/-! ### Every operation keeps the invariant -/

/-- A fault that a Step raises is no RomLoadError, and the Step was admitted, so a program is loaded. -/
theorem latchConsistent_of_stepFaults {s t : State} {f : Fault} (h : StepFaults s t f) : latchConsistent t = true := by
  have hcause := faultsHaveTheirCauses s t f h
  obtain ⟨⟨-, hloaded⟩, rfl, -⟩ := stepFaults_cases h
  cases f with
  | romLoadError n => exact hcause.elim
  | _ => exact hloaded

theorem step_keeps_inv {s t : State} (hinv : MachineInv s) (h : step s = .next t) : MachineInv t := by
  obtain ⟨hm, hpc, hs, -⟩ := hinv
  cases hflt : t.flt with
  | some f =>
    have hlatch := latchConsistent_of_stepFaults ⟨h, hflt⟩
    obtain ⟨-, rfl, -⟩ := stepFaults_cases ⟨h, hflt⟩
    exact ⟨hm, hpc, hs, hlatch⟩
  | none =>
    obtain ⟨-, -, op, u, hfetch, hu, hnone, rfl⟩ := stepCompletes_cases ⟨h, hflt⟩
    have hpc : s.pc.toNat ≤ 4094 := by have := (fetchOpcode_eq_ok.1 hfetch).1; omega
    have hadvanced : (s.enterHandler op).pc.toNat ≤ 4096 := by
      rw [State.enterHandler_pc, BitVec.toNat_add_of_lt (show s.pc.toNat + 2 < 2 ^ 16 by omega)]
      exact Nat.add_le_add_right hpc 2
    have hinv : MachineInv u := ⟨exec_mem_wf hu hm, exec_pc_le hu hnone hpc hs, exec_stackValid hu hadvanced hs,
      by rw [latchConsistent, hnone]⟩
    exact hinv

theorem loadProgram_keeps_inv {bytes : List Byte} {s t : State} (hinv : MachineInv s)
    (h : loadProgram bytes s = .next t) : MachineInv t := by
  obtain ⟨hm, hpc, hs, -⟩ := hinv
  cases hflt : s.flt with
  | some f => rw [loadProgram_of_latched hflt] at h; cases h
  | none =>
    cases hl : s.loaded with
    | true => rw [loadProgram_of_loaded hflt hl] at h; cases h
    | false =>
      by_cases hfits : bytes.length ≤ programCapacity
      · rw [loadProgram_of_fits hflt hl hfits] at h; cases h
        rw [programCapacity_eq] at hfits
        have hrange : 512 + bytes.length ≤ Config.memSize := by rw [Config.memSize_eq]; omega
        exact ⟨Memory.wf_writeMany hm hrange, hpc, hs, by simp [latchConsistent, hflt]⟩
      · have hlong := Nat.lt_of_not_le hfits
        rw [loadProgram_of_long hflt hl hlong] at h; cases h
        exact ⟨hm, hpc, hs, by simp [latchConsistent, hl, hlong]⟩

/-- A refused operation and one that answers a latched fault keep the state. -/
theorem stateAfter_keeps_inv {s : State} {o : Host.Outcome State Fault Refusal} (hinv : MachineInv s)
    (h : ∀ t, o = .next t → MachineInv t) : MachineInv (stateAfter s o) := by
  cases o with
  | next t => exact h t rfl
  | fault f => exact hinv
  | refused r => exact hinv

/-! ### The obligations -/

/-- Settles O14: after Reset memory lists nothing, the stack is empty and no fault is latched. -/
theorem resetMeetsTheInvariant : Obligations.ResetMeetsTheInvariant :=
  ⟨Memory.wf_nil, by decide, fun _ hj => absurd hj (Nat.not_lt_zero _), rfl⟩

/-- Settles O15: each clause is kept by the handlers; a faulting Step keeps all but the latch. -/
theorem everyStepKeepsTheInvariant : Obligations.EveryStepKeepsTheInvariant := fun _ _ => step_keeps_inv

/-- Settles O57: Reset leaves the fields of `State.reset` that the invariant speaks of, the keypad and random inputs are
none of them, and LoadProgram and Step keep it. -/
theorem everyHostOperationKeepsTheInvariant : Obligations.EveryHostOperationKeepsTheInvariant := by
  intro s op hinv
  cases op with
  | reset => exact resetMeetsTheInvariant
  | loadProgram bytes => exact stateAfter_keeps_inv hinv fun _ => loadProgram_keeps_inv hinv
  | writeKeypad k => exact hinv
  | supplyRandom b => exact hinv
  | step => exact stateAfter_keeps_inv hinv fun _ => step_keeps_inv hinv

/-- A run of host operations keeps the invariant. -/
theorem hostRun_keeps_inv (ops : List HostOp) : ∀ {s : State}, MachineInv s → MachineInv (ops.foldl applyOp s) := by
  induction ops with
  | nil => exact id
  | cons op ops ih => exact fun {s} hinv => ih (everyHostOperationKeepsTheInvariant s op hinv)

/-- Settles O16: a run starts in `State.reset`, which meets the invariant. -/
theorem everyHostRunMeetsTheInvariant : Obligations.EveryHostRunMeetsTheInvariant := fun ops =>
  hostRun_keeps_inv ops resetMeetsTheInvariant

end Sys2Proof.Machine
end
